-- ==== Sys2Proof/Word.lean ====
section
/-! DEFINITION. The words of CORE: what the spec itself treats as bits (00_scope.md R6, R7). -/

namespace Sys2Proof

/-- One register or port word, `WORD` = 64 bits, bit 0 the least significant (00_scope.md R6, R7). -/
abbrev Word := BitVec 64

/-- The 64-bit encoding of an IEEE 754 binary64 value: sign in bit 63, biased exponent in 62:52,
fraction in 51:0 (00_scope.md R9). -/
abbrev F64 := BitVec 64

/-- A register index on the port, `INDEX_BITS` = 6 bits (00_scope.md R6, 20_memory.md R70). -/
abbrev RegIndex := BitVec 6

/-- A count of samples, `DUR_BITS` = 32 bits (00_scope.md R6): a duration or `ENV_REMAIN`. -/
abbrev Count := BitVec 32

/-- One byte of a byte-addressed bus behind a bridge (20_memory.md R73). -/
abbrev Byte := BitVec 8

end Sys2Proof
end

