-- ==== Sys2Proof/Syntax.lean ====
section
/-! DEFINITION. The commands of spec/opcode_table.json, the registers of 10_state.md R21, the host's
inputs of 20_memory.md R70 and the assembler lines of 30_encoding.md R98, R99. -/

namespace Sys2Proof

/-- The eight commands of 30_encoding.md R93, one per row of spec/opcode_table.json. -/
inductive Instr where
  | nop         -- `nop`, 42_control.md R210
  | envGateOn   -- `env.gate.on`, 40_envelope.md R113
  | envGateOff  -- `env.gate.off`, 40_envelope.md R114
  | envStep     -- `env.step`, 40_envelope.md R116
  | envReset    -- `env.reset`, 40_envelope.md R120
  | oscGen      -- `osc.gen`, 41_oscillator.md R169
  | oscReset    -- `osc.reset`, 41_oscillator.md R173
  | clrerr      -- `clrerr`, 42_control.md R211
deriving DecidableEq, Repr

/-- The registers of the register map, 10_state.md R21, in its order. -/
inductive Reg where
  | cmd | status | errInfo
  | envGated | envAtkDur | envAtkShape | envDecDur | envDecShape | envDecLevel
  | envSusDur | envRelDur | envRelShape
  | envState | envRemain | envRamp | envInc | envDelta | envShape | envBase | envAmp | envOut
  | oscMode | oscFreq | oscPhofs | oscSrate
  | oscPhase | oscLast | oscOut
deriving DecidableEq, Repr

/-- The access kinds of mapped registers, 10_state.md R20. -/
inductive RegKind where
  | rw | ro | wo
deriving DecidableEq, Repr

/-- What reaches CORE from outside: the two transactions of 20_memory.md R70, and the platform's
hard-reset signal (70_reset_and_hazards.md R260), which lands between transactions. -/
inductive Input where
  | read (idx : RegIndex)
  | write (idx : RegIndex) (v : Word)
  | hardReset
deriving DecidableEq, Repr

/-- A value of the assembler (30_encoding.md R98): an integer literal, or the real literal `f64(d)`
with `d = ± num / den`, the decimal's sign, its digits and its power of ten. -/
inductive AsmValue where
  | int (w : Word)
  | real (neg : Bool) (num den : Nat)
deriving DecidableEq, Repr

/-- A line of a CORE program (30_encoding.md R98) or a pseudo-instruction (R99). -/
inductive AsmLine where
  | wr (r : Reg) (v : AsmValue)
  | rd (r : Reg)
  | cmd (i : Instr)
  | envGate (on : Bool)
  | oscSample (f p : AsmValue)
  | envConfig (g ad as dd ds dl sd rd rs : AsmValue)
deriving DecidableEq, Repr

end Sys2Proof
end

