-- ==== Sys2Proof/WellFormed.lean ====
section
/-! DEFINITION. Which commands and command words are well formed (30_encoding.md R91 to R94, R97). -/

namespace Sys2Proof

/-- A command has no operand but the gate's `ON`, which is its constructor (30_encoding.md R95), so
every term of `Instr` is well formed: each line is the check of its row's `fields` (none). -/
def Instr.wellFormed : Instr → Bool
  | .nop => true
  | .envGateOn => true
  | .envGateOff => true
  | .envStep => true
  | .envReset => true
  | .oscGen => true
  | .oscReset => true
  | .clrerr => true

/-- `OP`, bits 7:0 of a command word (30_encoding.md R91). -/
def opField (w : Word) : BitVec 8 := w.extractLsb' 0 8

/-- `Z` of format C0, bits 63:8, is 0 (30_encoding.md R91). -/
def zeroC0 (w : Word) : Bool := w.extractLsb' 8 56 == 0

/-- `Z` of format CG, bits 63:9, is 0 (30_encoding.md R92). -/
def zeroCG (w : Word) : Bool := w.extractLsb' 9 55 == 0

/-- The opcodes of format C0 (30_encoding.md R93). -/
def c0Opcodes : List (BitVec 8) := [0x00, 0x02, 0x03, 0x10, 0x11, 0x20]

/-- A legal command word by its fields, the second form 30_encoding.md R94 gives. -/
def wellFormedWord (w : Word) : Bool :=
  (c0Opcodes.contains (opField w) && zeroC0 w) || (opField w == 0x01 && zeroCG w)

end Sys2Proof
end

