-- ==== Sys2Proof/Decode.lean ====
section
/-! DEFINITION. Decoding (30_encoding.md R94) and encoding (R91 to R93) of command words. -/

namespace Sys2Proof

/-- What a command word decodes to: a command, or `ILLEGAL(w)` (30_encoding.md R94). -/
inductive Decoded where
  | command (i : Instr)
  | illegal (w : Word)
deriving DecidableEq, Repr

/-- 30_encoding.md R94: total, by the whole word. -/
def decode (w : Word) : Decoded :=
  if w = 0x0000000000000000 then .command .nop
  else if w = 0x0000000000000101 then .command .envGateOn
  else if w = 0x0000000000000001 then .command .envGateOff
  else if w = 0x0000000000000002 then .command .envStep
  else if w = 0x0000000000000003 then .command .envReset
  else if w = 0x0000000000000010 then .command .oscGen
  else if w = 0x0000000000000011 then .command .oscReset
  else if w = 0x0000000000000020 then .command .clrerr
  else .illegal w

/-- Format C0 (30_encoding.md R91): `Z` of 56 zero bits above `OP`. -/
def formatC0 (op : BitVec 8) : Word := (0 : BitVec 56) ++ op

/-- Format CG (30_encoding.md R92): `Z` of 55 zero bits, `ON`, and `OP` = 0x01. -/
def formatCG (on : Bool) : Word := (0 : BitVec 55) ++ (BitVec.ofBool on ++ (0x01 : BitVec 8))

/-- The word of each command, from its format and opcode (30_encoding.md R91 to R93). -/
def encode : Instr → Word
  | .nop => formatC0 0x00
  | .envGateOn => formatCG true
  | .envGateOff => formatCG false
  | .envStep => formatC0 0x02
  | .envReset => formatC0 0x03
  | .oscGen => formatC0 0x10
  | .oscReset => formatC0 0x11
  | .clrerr => formatC0 0x20

/-- The one 64-bit command word (30_encoding.md R90) whose low `nbits` bits are those of `w`, the bits
above them zero. -/
def tableWord (nbits w : Nat) : Word := BitVec.ofNat 64 (w % 2 ^ nbits)

/-- The command this decoder reads from a word numbered as spec/opcode_table.json numbers it; none
where the word is illegal. -/
def decodeTableWord (nbits w : Nat) : Option Instr :=
  match decode (tableWord nbits w) with
  | .command i => some i
  | .illegal _ => none

end Sys2Proof
end

