-- ==== Sys2Proof/Config.lean ====
section
/-! DEFINITION. The implementation parameters of 00_scope.md R6 that the rules leave open or give a
value, and the free values. An `opaque` constant has no body: nothing can be proved of its value. -/

namespace Sys2Proof.Config

/-- `GATE_OFF_NEEDS_GATED`, `false` for this hardware (00_scope.md R6; log 6). -/
def gateOffNeedsGated : Bool := false

/-- The parameter behind `powFn` (00_scope.md R14), before the laws P1 to P3 are imposed on it by
`Machine.lawfulPow` (log 4). -/
opaque powRaw : F64 → F64 → F64

/-- The parameter behind `sinFn` (00_scope.md R15), before the laws S1 and S2 are imposed on it by
`Machine.lawfulSin` (log 5). -/
opaque sinRaw : F64 → F64

/-- `N_CORE - 1`: how many instances a platform places beyond the first (00_scope.md R6; log 7). -/
opaque moreCores : Nat

/-- `N_CORE`, at least 1 (00_scope.md R6). -/
def nCore : Nat := moreCores + 1

/-- The free words: `freeWord n k` is what the `k`-th operation of the `n`-th drawing command leaves
where the spec fixes no value, the sign and payload of a NaN it produces (95_test_vectors.md P6;
log 3) and `fold` of a non-finite number (log 8). It carries no number of an instance (DESIGN CHOICE, log 17). -/
opaque freeWord : Nat → Nat → Word

end Sys2Proof.Config
end

