-- ==== Sys2Proof/Machine/State.lean ====
section
/-! DEFINITION. Everything CORE holds (10_state.md), as plain data, its reset value
(70_reset_and_hazards.md R260), and the reasons a step could stop: there are none in the spec. -/

namespace Sys2Proof.Machine

/-- The lifecycle state of the envelope, `ENV_STATE` (10_state.md R35, 40_envelope.md R110). -/
inductive Stage where
  | idle | attack | decay | sustain | release
deriving DecidableEq, Repr

/-- The waveform, `OSC_MODE` (10_state.md R44, 41_oscillator.md R160). -/
inductive Waveform where
  | sine | saw | square | triangle
deriving DecidableEq, Repr

/-- The three error kinds, each the cause named in `STATUS.FIRST_CAUSE` (60_exceptions.md R230). -/
inductive Cause where
  | value | command | access
deriving DecidableEq, Repr

/-- The error record (10_state.md R24, R25). -/
structure ErrorRecord where
  /-- `STATUS` -/
  status : Word
  /-- `ERR_INFO` -/
  errInfo : Word
deriving DecidableEq, Repr

/-- The envelope's configuration registers (10_state.md R26 to R34), each as wide as its content. -/
structure EnvConfig where
  /-- `ENV_GATED`, bit 0 -/
  gated : Bool
  /-- `ENV_ATK_DUR` -/
  atkDur : Count
  /-- `ENV_ATK_SHAPE` -/
  atkShape : F64
  /-- `ENV_DEC_DUR` -/
  decDur : Count
  /-- `ENV_DEC_SHAPE` -/
  decShape : F64
  /-- `ENV_DEC_LEVEL` -/
  decLevel : F64
  /-- `ENV_SUS_DUR` -/
  susDur : Count
  /-- `ENV_REL_DUR` -/
  relDur : Count
  /-- `ENV_REL_SHAPE` -/
  relShape : F64
deriving DecidableEq, Repr

/-- The envelope's runtime registers (10_state.md R35 to R43). -/
structure EnvRuntime where
  /-- `ENV_STATE` -/
  stage : Stage
  /-- `ENV_REMAIN` -/
  remain : Count
  /-- `ENV_RAMP` -/
  ramp : F64
  /-- `ENV_INC` -/
  inc : F64
  /-- `ENV_DELTA` -/
  delta : F64
  /-- `ENV_SHAPE` -/
  shape : F64
  /-- `ENV_BASE` -/
  base : F64
  /-- `ENV_AMP` -/
  amp : F64
  /-- `ENV_OUT` -/
  out : F64
deriving DecidableEq, Repr

/-- The oscillator's configuration and operand registers (10_state.md R44 to R47). -/
structure OscConfig where
  /-- `OSC_MODE` -/
  mode : Waveform
  /-- `OSC_FREQ` -/
  freq : F64
  /-- `OSC_PHOFS` -/
  phofs : F64
  /-- `OSC_SRATE` -/
  srate : F64
deriving DecidableEq, Repr

/-- The oscillator's runtime registers (10_state.md R48 to R50). -/
structure OscRuntime where
  /-- `OSC_PHASE` -/
  phase : F64
  /-- `OSC_LAST` -/
  last : F64
  /-- `OSC_OUT` -/
  out : F64
deriving DecidableEq, Repr

/-- The host's side of the port; the MODEL's own fields, no register of CORE (logs 1, 2). -/
structure HostPort where
  /-- what the host will give the port, in port order (20_memory.md R80) -/
  inputs : List Input
  /-- what the last transaction returned: a word for a read, nothing for a write (R70) -/
  response : Option Word
deriving DecidableEq, Repr

/-- The state of one CORE instance (10_state.md R21 to R56), with the model's own `port` and `draws`. -/
structure State where
  err : ErrorRecord
  envCfg : EnvConfig
  env : EnvRuntime
  oscCfg : OscConfig
  osc : OscRuntime
  port : HostPort
  /-- how many commands have drawn free words (log 3); the MODEL's own, no register of CORE -/
  draws : Nat
deriving DecidableEq, Repr

/-- 70_reset_and_hazards.md R260, every register at its stated value; the model's own fields at the
values of logs 1 to 3 (no pending input, no response, no draw). -/
def State.reset : State where
  err := { status := 0x0, errInfo := 0x0 }
  envCfg :=
    { gated := false
      atkDur := 1
      atkShape := 0x3FF0000000000000
      decDur := 1
      decShape := 0x3FF0000000000000
      decLevel := 0x3FF0000000000000
      susDur := 1
      relDur := 1
      relShape := 0x3FF0000000000000 }
  env :=
    { stage := .idle
      remain := 0
      ramp := 0x0
      inc := 0x0
      delta := 0x0
      shape := 0x3FF0000000000000
      base := 0x0
      amp := 0x0
      out := 0x0 }
  oscCfg :=
    { mode := .sine
      freq := 0x0
      phofs := 0x0
      srate := 0x40E5888000000000 }
  osc := { phase := 0x0, last := 0x0, out := 0x0 }
  port := { inputs := [], response := none }
  draws := 0

/-- Why CORE stops: no constructor, because nothing in CORE stops. An error is recorded and the
machine goes on (60_exceptions.md R238; log 14). Safe and unsafe do not arise. -/
inductive Fault where
deriving DecidableEq, Repr

/-- Why the model refuses an instruction. No step of this model answers a refusal (log 14). -/
inductive Refusal where
  /-- Raised by no one: every command of the table has its meaning. It would be safe: the model
  would stop where the hardware goes on. -/
  | notModelled (mnemonic : String)
deriving DecidableEq, Repr

end Sys2Proof.Machine
end

