-- ==== Sys2Proof/Machine/Flags.lean ====
section
/-! DEFINITION. The fields of `STATUS` (10_state.md R24), CORE's only flags (R53). -/

namespace Sys2Proof.Machine

/-- The cause code of an error kind (60_exceptions.md R230). -/
def causeCode : Cause → BitVec 2
  | .value => 1
  | .command => 2
  | .access => 3

/-- `STATUS.ERR_VALUE`, bit 0. -/
def errValue (st : Word) : Bool := st.getLsbD 0

/-- `STATUS.ERR_CMD`, bit 1. -/
def errCmd (st : Word) : Bool := st.getLsbD 1

/-- `STATUS.ERR_ACCESS`, bit 2. -/
def errAccess (st : Word) : Bool := st.getLsbD 2

/-- `STATUS.FIRST_CAUSE`, bits 5:4. -/
def firstCause (st : Word) : BitVec 2 := st.extractLsb' 4 2

/-- The sticky bit of an error kind, bit `c - 1` of `STATUS` (60_exceptions.md R231). -/
def stickyBit (c : Cause) : Word := 1#64 <<< ((causeCode c).toNat - 1)

/-- `R(STATUS)[c - 1] <- 1`. -/
def setSticky (c : Cause) (st : Word) : Word := st ||| stickyBit c

/-- `R(STATUS).FIRST_CAUSE <- c`. -/
def setFirstCause (c : Cause) (st : Word) : Word :=
  (st &&& ~~~0x30#64) ||| ((causeCode c).setWidth 64 <<< 4)

end Sys2Proof.Machine
end

