-- ==== Sys2Proof/Machine/Binary64.lean ====
section
/-! DEFINITION. IEEE 754 binary64 arithmetic on encodings (00_scope.md R9 to R12). Every finite value is
a whole number of units of 2^-1074, so each operation computes exactly in `Nat` or `Int` and rounds
once, at the end. An operation that produces a NaN is given a free word for its sign and payload
(log 3). The cases of infinities, zeros and NaNs are those of IEEE 754-2008, which R10 names (log 15). -/

namespace Sys2Proof.Machine

/-- `+0.0` -/
def posZero : F64 := 0x0000000000000000

/-- `1.0` -/
def one64 : F64 := 0x3FF0000000000000

/-- `-1.0` -/
def negOne64 : F64 := 0xBFF0000000000000

/-- `0.5` -/
def half64 : F64 := 0x3FE0000000000000

/-- `2.0` -/
def two64 : F64 := 0x4000000000000000

/-- `TWO_PI` (00_scope.md R16) -/
def twoPi64 : F64 := 0x401921FB54442D18

/-- The encoding of infinity without its sign, above which lie the NaNs (00_scope.md R9). -/
def infBits : Nat := 0x7FF0000000000000

/-- How many units of 2^-1074 make 1.0. Irreducible, so that no tactic writes the number out; the
kernel computes with it all the same. -/
@[irreducible] def unitsPerOne : Nat := 2 ^ 1074

/-- The sign bit, bit 63. -/
def fsign (x : F64) : Bool := x.msb

/-- The encoding without its sign bit, bits 62:0. -/
def fmag (x : F64) : Nat := x.toNat % 2 ^ 63

/-- The magnitude, in units of 2^-1074, that exponent field `b / 2^52` and fraction `b % 2^52` encode:
a subnormal where the exponent field is 0 (00_scope.md R9). At `infBits` it is 2^1024, the bound at
which rounding gives infinity. -/
def unitsOf (b : Nat) : Nat :=
  if b / 2 ^ 52 = 0 then b else (2 ^ 52 + b % 2 ^ 52) * 2 ^ (b / 2 ^ 52 - 1)

def isNaN (x : F64) : Bool := infBits < fmag x

def isInf (x : F64) : Bool := fmag x == infBits

def isFinite (x : F64) : Bool := fmag x < infBits

def isZero (x : F64) : Bool := fmag x == 0

/-- The exact value in units of 2^-1074; for an infinity, a value beyond every finite one. -/
def fvalue (x : F64) : Int :=
  if fsign x then -(unitsOf (fmag x) : Int) else (unitsOf (fmag x) : Int)

/-- The encoding with the given sign and bits 62:0. -/
def packF (neg : Bool) (bits : Nat) : F64 := BitVec.ofNat 64 (bits + if neg then 2 ^ 63 else 0)

/-- `RNE` of a magnitude of `num / den` units: to the nearest encoding, ties to the even one
(00_scope.md R11). `e` is the exponent of the last place; `e * 2^52 + n` is the encoding of `n` last
places, whether subnormal, normal or carried into the next exponent; past the largest finite value
the result is infinity. -/
def roundUnits (num den : Nat) : Nat :=
  let e := Nat.log2 (num / den) - 52
  let ulp := den * 2 ^ e
  let n := num / ulp
  let r := num % ulp
  min (e * 2 ^ 52 + if ulp < 2 * r ∨ (2 * r = ulp ∧ n % 2 = 1) then n + 1 else n) infBits

/-- The NaN whose sign and fraction a free word gives (a fraction of 0 would be an infinity's, so it
stands for 1); every NaN is such a one (log 3). -/
def freeNaN (w : Word) : F64 := packF (fsign w) (infBits + max (fmag w % 2 ^ 52) 1)

/-- `-x`: flips the sign bit (00_scope.md R11). -/
def fneg (x : F64) : F64 := packF (!fsign x) (fmag x)

/-- `fabs(x)`: clears the sign bit (00_scope.md R11). -/
def fabs (x : F64) : F64 := packF false (fmag x)

/-- `RNE` of an exact number of units, with the sign of its zero. -/
def roundInt (zeroNeg : Bool) (z : Int) : F64 :=
  packF (if z = 0 then zeroNeg else decide (z < 0)) (roundUnits z.natAbs 1)

/-- `a + b` (00_scope.md R10). -/
def fadd (free : Word) (a b : F64) : F64 :=
  if isNaN a || isNaN b then freeNaN free
  else if isInf a then
    if isInf b && fsign a != fsign b then freeNaN free else a
  else if isInf b then b
  else roundInt (fsign a && fsign b) (fvalue a + fvalue b)

/-- `a - b` (00_scope.md R10): the IEEE difference is the sum with `b` negated. -/
def fsub (free : Word) (a b : F64) : F64 := fadd free a (fneg b)

/-- `a * b` (00_scope.md R10). -/
def fmul (free : Word) (a b : F64) : F64 :=
  let neg := fsign a != fsign b
  if isNaN a || isNaN b then freeNaN free
  else if isInf a || isInf b then
    if isZero a || isZero b then freeNaN free else packF neg infBits
  else packF neg (roundUnits (unitsOf (fmag a) * unitsOf (fmag b)) unitsPerOne)

/-- `a / b` (00_scope.md R10). -/
def fdiv (free : Word) (a b : F64) : F64 :=
  let neg := fsign a != fsign b
  if isNaN a || isNaN b then freeNaN free
  else if isInf a then if isInf b then freeNaN free else packF neg infBits
  else if isInf b then packF neg 0
  else if isZero b then if isZero a then freeNaN free else packF neg infBits
  else packF neg (roundUnits (unitsOf (fmag a) * unitsPerOne) (unitsOf (fmag b)))

/-- `a < b`, false if either is a NaN; `-0.0` equals `+0.0` (00_scope.md R11). -/
def flt (a b : F64) : Bool := !isNaN a && !isNaN b && decide (fvalue a < fvalue b)

/-- `a <= b`, false if either is a NaN (00_scope.md R11); `a >= b` is `fle b a`. -/
def fle (a b : F64) : Bool := !isNaN a && !isNaN b && decide (fvalue a ≤ fvalue b)

/-- `f64(n)` of an unsigned integer (00_scope.md R12). -/
def f64OfNat (n : Nat) : F64 := packF false (roundUnits (n * unitsPerOne) 1)

/-- `RNE(x - floor(x))` of a finite `x` (41_oscillator.md R162): `%` on `Int` is the remainder of the
floor, for a positive modulus. -/
def fracPart (x : F64) : F64 := roundInt false (fvalue x % (unitsPerOne : Int))

/-- `RNE(± num / den)` of an exact decimal (30_encoding.md R98). The signs of zeros are the model's: an
exact zero is `+0.0`, and a negative number that rounds to zero is `-0.0` (DESIGN CHOICE, log 11). -/
def realLiteral (neg : Bool) (num den : Nat) : F64 :=
  packF (neg && num != 0) (roundUnits (num * unitsPerOne) den)

/-- The free words of the operations from the `n`-th on. -/
def freeFrom (free : Nat → Word) (n : Nat) : Nat → Word := fun k => free (n + k)

end Sys2Proof.Machine
end

