-- ==== Sys2Proof/Machine/Operands.lean ====
section
/-! DEFINITION. The register map (10_state.md R20 to R22): each register's index, access kind, read
word, legal written values and write. -/

namespace Sys2Proof.Machine

/-- The index of a register (10_state.md R21). -/
def regIndex : Reg → RegIndex
  | .cmd => 0x00
  | .status => 0x01
  | .errInfo => 0x02
  | .envGated => 0x08
  | .envAtkDur => 0x09
  | .envAtkShape => 0x0A
  | .envDecDur => 0x0B
  | .envDecShape => 0x0C
  | .envDecLevel => 0x0D
  | .envSusDur => 0x0E
  | .envRelDur => 0x0F
  | .envRelShape => 0x10
  | .envState => 0x18
  | .envRemain => 0x19
  | .envRamp => 0x1A
  | .envInc => 0x1B
  | .envDelta => 0x1C
  | .envShape => 0x1D
  | .envBase => 0x1E
  | .envAmp => 0x1F
  | .envOut => 0x20
  | .oscMode => 0x28
  | .oscFreq => 0x29
  | .oscPhofs => 0x2A
  | .oscSrate => 0x2B
  | .oscPhase => 0x30
  | .oscLast => 0x31
  | .oscOut => 0x32

/-- Every register, in the order of the map. -/
def allRegs : List Reg :=
  [.cmd, .status, .errInfo, .envGated, .envAtkDur, .envAtkShape, .envDecDur, .envDecShape,
    .envDecLevel, .envSusDur, .envRelDur, .envRelShape, .envState, .envRemain, .envRamp, .envInc,
    .envDelta, .envShape, .envBase, .envAmp, .envOut, .oscMode, .oscFreq, .oscPhofs, .oscSrate,
    .oscPhase, .oscLast, .oscOut]

/-- The register at an index; none where the index is unmapped (10_state.md R22). -/
def regAt (idx : RegIndex) : Option Reg := allRegs.find? fun r => regIndex r == idx

/-- The access kind of a register (10_state.md R21). -/
def regKind : Reg → RegKind
  | .cmd => .wo
  | .status | .errInfo => .ro
  | .envGated | .envAtkDur | .envAtkShape | .envDecDur | .envDecShape | .envDecLevel => .rw
  | .envSusDur | .envRelDur | .envRelShape => .rw
  | .envState | .envRemain | .envRamp | .envInc | .envDelta | .envShape | .envBase => .ro
  | .envAmp | .envOut => .ro
  | .oscMode | .oscFreq | .oscPhofs | .oscSrate => .rw
  | .oscPhase | .oscLast | .oscOut => .ro

/-- `ENV_STATE` on the port (10_state.md R35). -/
def stageWord : Stage → Word
  | .idle => 0
  | .attack => 1
  | .decay => 2
  | .sustain => 3
  | .release => 4

/-- `OSC_MODE` on the port (10_state.md R44). -/
def modeWord : Waveform → Word
  | .sine => 0
  | .saw => 1
  | .square => 2
  | .triangle => 3

/-- The waveform a legal `OSC_MODE` word names: `MODE`, bits 1:0 (10_state.md R44). -/
def modeOfWord (v : Word) : Waveform :=
  match (v.extractLsb' 0 2).toNat with
  | 0 => .sine
  | 1 => .saw
  | 2 => .square
  | _ => .triangle

/-- `R(NAME)` as a read of the port returns it, unused bits 0 (30_encoding.md R96, 20_memory.md R75);
`CMD` reads 0 (10_state.md R23). -/
def readReg (r : Reg) (s : State) : Word :=
  match r with
  | .cmd => 0x0
  | .status => s.err.status
  | .errInfo => s.err.errInfo
  | .envGated => (BitVec.ofBool s.envCfg.gated).setWidth 64
  | .envAtkDur => s.envCfg.atkDur.setWidth 64
  | .envAtkShape => s.envCfg.atkShape
  | .envDecDur => s.envCfg.decDur.setWidth 64
  | .envDecShape => s.envCfg.decShape
  | .envDecLevel => s.envCfg.decLevel
  | .envSusDur => s.envCfg.susDur.setWidth 64
  | .envRelDur => s.envCfg.relDur.setWidth 64
  | .envRelShape => s.envCfg.relShape
  | .envState => stageWord s.env.stage
  | .envRemain => s.env.remain.setWidth 64
  | .envRamp => s.env.ramp
  | .envInc => s.env.inc
  | .envDelta => s.env.delta
  | .envShape => s.env.shape
  | .envBase => s.env.base
  | .envAmp => s.env.amp
  | .envOut => s.env.out
  | .oscMode => modeWord s.oscCfg.mode
  | .oscFreq => s.oscCfg.freq
  | .oscPhofs => s.oscCfg.phofs
  | .oscSrate => s.oscCfg.srate
  | .oscPhase => s.osc.phase
  | .oscLast => s.osc.last
  | .oscOut => s.osc.out

/-- A legal duration: 1 to 0xFFFFFFFF, bits 63:32 zero (10_state.md R27). -/
def legalDuration (v : Word) : Bool := v.extractLsb' 32 32 == 0 && v.extractLsb' 0 32 != 0

/-- A legal shape exponent: finite and above `+0.0` (10_state.md R28). -/
def legalShape (v : F64) : Bool := isFinite v && flt posZero v

/-- A legal decay level: in [0, 1], `-0.0` among them (10_state.md R31). -/
def legalLevel (v : F64) : Bool := fle posZero v && fle v one64

/-- A legal sample rate: finite and at least 1.0 (10_state.md R47). -/
def legalRate (v : F64) : Bool := isFinite v && fle one64 v

/-- `legal(idx, v)` of 20_memory.md R72: the legal-value condition of each `RW` register's rule; no
value is written to the others. -/
def legalValue (r : Reg) (v : Word) : Bool :=
  match r with
  | .envGated => v == 0x0 || v == 0x1
  | .envAtkDur | .envDecDur | .envSusDur | .envRelDur => legalDuration v
  | .envAtkShape | .envDecShape | .envRelShape => legalShape v
  | .envDecLevel => legalLevel v
  | .oscMode => v.ule 0x3
  | .oscFreq | .oscPhofs => isFinite v
  | .oscSrate => legalRate v
  | .cmd | .status | .errInfo => false
  | .envState | .envRemain | .envRamp | .envInc | .envDelta | .envShape | .envBase => false
  | .envAmp | .envOut | .oscPhase | .oscLast | .oscOut => false

/-- `R(NAME) <- v` of an `RW` register, for a legal `v` (20_memory.md R72); the port writes no other
register. -/
def writeReg (r : Reg) (v : Word) (s : State) : State :=
  match r with
  | .envGated => { s with envCfg := { s.envCfg with gated := v.getLsbD 0 } }
  | .envAtkDur => { s with envCfg := { s.envCfg with atkDur := v.setWidth 32 } }
  | .envAtkShape => { s with envCfg := { s.envCfg with atkShape := v } }
  | .envDecDur => { s with envCfg := { s.envCfg with decDur := v.setWidth 32 } }
  | .envDecShape => { s with envCfg := { s.envCfg with decShape := v } }
  | .envDecLevel => { s with envCfg := { s.envCfg with decLevel := v } }
  | .envSusDur => { s with envCfg := { s.envCfg with susDur := v.setWidth 32 } }
  | .envRelDur => { s with envCfg := { s.envCfg with relDur := v.setWidth 32 } }
  | .envRelShape => { s with envCfg := { s.envCfg with relShape := v } }
  | .oscMode => { s with oscCfg := { s.oscCfg with mode := modeOfWord v } }
  | .oscFreq => { s with oscCfg := { s.oscCfg with freq := v } }
  | .oscPhofs => { s with oscCfg := { s.oscCfg with phofs := v } }
  | .oscSrate => { s with oscCfg := { s.oscCfg with srate := v } }
  | .cmd | .status | .errInfo => s
  | .envState | .envRemain | .envRamp | .envInc | .envDelta | .envShape | .envBase => s
  | .envAmp | .envOut | .oscPhase | .oscLast | .oscOut => s

end Sys2Proof.Machine
end

