-- ==== Sys2Proof/Machine/Ops.lean ====
section
/-! DEFINITION. The operations commands and transactions share: raising an error and clearing the
record (60_exceptions.md R231, 42_control.md R211), hard reset (70_reset_and_hazards.md R260), what a
transaction returns, and drawing free words (log 3). CORE has no trap entry and no return (R238, R239). -/

namespace Sys2Proof.Machine

/-- `raise E(info)` on the error record (60_exceptions.md R231). -/
def recordError (c : Cause) (info : Word) (e : ErrorRecord) : ErrorRecord :=
  if firstCause e.status = 0 then
    { status := setFirstCause c (setSticky c e.status), errInfo := info }
  else
    { e with status := setSticky c e.status }

/-- `raise E(info)`: records the error and stops nothing (60_exceptions.md R231, R238). -/
def raiseError (c : Cause) (info : Word) (s : State) : State :=
  { s with err := recordError c info s.err }

/-- The hard-reset error record, which `clrerr` restores (42_control.md R211). -/
def clearErrors (s : State) : State := { s with err := { status := 0x0, errInfo := 0x0 } }

/-- The information of an error of a read: the index, bit 8 = 0 (10_state.md R25). -/
def readInfo (idx : RegIndex) : Word := idx.setWidth 64

/-- The information of an error of a write: the index, bit 8 = 1 (10_state.md R25). -/
def writeInfo (idx : RegIndex) : Word := idx.setWidth 64 ||| 0x100

/-- What a transaction returns to the host (20_memory.md R70; log 2). -/
def respond (w : Option Word) (s : State) : State :=
  { s with port := { s.port with response := w } }

/-- Hard reset: every register at its reset value (70_reset_and_hazards.md R260). What the host has
yet to do and the count of draws are no registers and stay (log 12). -/
def hardReset (s : State) : State :=
  { State.reset with port := { inputs := s.port.inputs, response := none }, draws := s.draws }

/-- The free words of the command about to run (log 3). They depend on the number of draws alone, so that
two instances of a platform with equal counts read the same words: DESIGN CHOICE, unsafe (log 17). -/
def freeWords (s : State) : Nat → Word := Config.freeWord s.draws

/-- A command that computes has drawn its free words; the next one draws others (log 3). -/
def drawn (s : State) : State := { s with draws := s.draws + 1 }

end Sys2Proof.Machine
end

