-- ==== Sys2Proof/Machine/Control.lean ====
section
/-! DEFINITION. The control commands (42_control.md). -/

namespace Sys2Proof.Machine

/-- `nop`: no register changes (42_control.md R210). -/
def execNop (s : State) : Host.Outcome State Fault Refusal := .next s

/-- `clrerr`: `STATUS` and `ERR_INFO` to 0, nothing else (42_control.md R211). -/
def execClrerr (s : State) : Host.Outcome State Fault Refusal := .next (clearErrors s)

end Sys2Proof.Machine
end

