-- ==== Sys2Proof/Machine/Numeric.lean ====
section
/-! DEFINITION. The parameters `powFn` and `sinFn` with their laws (00_scope.md R14, R15). -/

namespace Sys2Proof.Machine

/-- The operands with which CORE calls `powFn`: `x` finite and `x >= 0`, `y` finite and `y > 0`
(00_scope.md R14). -/
def powDomain (x y : F64) : Bool := isFinite x && fle posZero x && isFinite y && flt posZero y

/-- Laws P1, P2 and P3 of 00_scope.md R14 (readings: log 4). -/
structure PowLaws (f : F64 → F64 → F64) : Prop where
  p1 : ∀ x, f x one64 = x
  p2 : ∀ x y, powDomain x y = true →
    isNaN (f x y) = false ∧ fle posZero (f x y) = true ∧
    (isFinite (f x y) = true ∨ flt one64 x = true)
  p3 : ∀ y, isFinite y = true → flt posZero y = true → f one64 y = one64 ∧ f posZero y = posZero

/-- Laws S1 and S2 of 00_scope.md R15. -/
structure SinLaws (f : F64 → F64) : Prop where
  s1 : f posZero = posZero ∧ f (fneg posZero) = fneg posZero
  s2 : ∀ x, isFinite x = true →
    isFinite (f x) = true ∧ fle negOne64 (f x) = true ∧ fle (f x) one64 = true

/-- `raw` where the laws P1 to P3 allow it, a lawful value elsewhere. A function that has the laws is
left as it is, so every lawful `powFn` is `lawfulPow` of something (log 4). -/
def lawfulPow (raw : F64 → F64 → F64) (x y : F64) : F64 :=
  if y = one64 then x
  else if powDomain x y then
    if x = one64 then one64
    else if x = posZero then posZero
    else if fle posZero (raw x y) && (isFinite (raw x y) || flt one64 x) then raw x y
    else posZero
  else raw x y

/-- `raw` where the laws S1 and S2 allow it, a lawful value elsewhere; it leaves a lawful function as
it is (log 5). -/
def lawfulSin (raw : F64 → F64) (x : F64) : F64 :=
  if isZero x then x
  else if isFinite x then
    if isFinite (raw x) && fle negOne64 (raw x) && fle (raw x) one64 then raw x else posZero
  else raw x

/-- `powFn`, the parameter of 00_scope.md R14. -/
def powFn (x y : F64) : F64 := lawfulPow Config.powRaw x y

/-- `sinFn`, the parameter of 00_scope.md R15. -/
def sinFn (x : F64) : F64 := lawfulSin Config.sinRaw x

end Sys2Proof.Machine
end

