-- ==== Sys2Proof/Machine/Envelope.lean ====
section
/-! DEFINITION. The envelope commands (40_envelope.md R110 to R126), over the envelope's configuration
and runtime registers, and their meanings over the whole state. -/

namespace Sys2Proof.Machine

/-- `clamp01(x)` (40_envelope.md R111): a NaN gives `+0.0`. -/
def clamp01 (x : F64) : F64 :=
  if flt one64 x then one64 else if fle posZero x then x else posZero

/-- `1.0 / f64(duration)`, the increment of a ramping segment (40_envelope.md R112 to R114). -/
def increment (free : Word) (dur : Count) : F64 := fdiv free one64 (f64OfNat dur.toNat)

/-- `enterNext(v)` (40_envelope.md R112): the parameters of the segment after the one that ended. -/
def enterNext (free : Nat → Word) (c : EnvConfig) (v : F64) (r : EnvRuntime) : EnvRuntime :=
  match r.stage with
  | .attack =>
    { r with
      stage := .decay
      remain := c.decDur
      shape := c.decShape
      delta := fneg (fsub (free 0) v c.decLevel)
      inc := increment (free 1) c.decDur }
  | .decay =>
    { r with
      stage := .sustain
      remain := c.susDur
      shape := one64
      delta := posZero
      inc := posZero }
  | .sustain =>
    { r with
      stage := .release
      remain := c.relDur
      shape := c.relShape
      delta := fneg v
      inc := increment (free 1) c.relDur }
  | .release =>
    { r with
      stage := .idle
      remain := 0
      shape := one64
      delta := posZero
      inc := posZero
      amp := posZero
      base := posZero }
  | .idle => r

/-- `env.gate.on` on the envelope's registers (40_envelope.md R113). -/
def gateOn (free : Nat → Word) (c : EnvConfig) (r : EnvRuntime) : EnvRuntime :=
  { r with
    stage := .attack
    remain := c.atkDur
    shape := c.atkShape
    base := r.amp
    delta := fsub (free 0) one64 r.amp
    inc := increment (free 1) c.atkDur
    ramp := posZero }

/-- The states strictly between Idle and Release (40_envelope.md R114). -/
def betweenIdleAndRelease : Stage → Bool
  | .attack | .decay | .sustain => true
  | .idle | .release => false

/-- `enabled` of `env.gate.off` (40_envelope.md R114), for either value of `GATE_OFF_NEEDS_GATED`. -/
def gateOffEnabled (needsGated : Bool) (c : EnvConfig) (r : EnvRuntime) : Bool :=
  betweenIdleAndRelease r.stage && (!needsGated || c.gated)

/-- What an enabled `env.gate.off` does to the envelope's registers (40_envelope.md R114). -/
def enterRelease (free : Nat → Word) (c : EnvConfig) (r : EnvRuntime) : EnvRuntime :=
  { r with
    stage := .release
    remain := c.relDur
    shape := c.relShape
    base := r.amp
    delta := fneg r.amp
    inc := increment (free 0) c.relDur
    ramp := posZero }

/-- The hold condition of `env.step` (40_envelope.md R115). -/
def envHolds (c : EnvConfig) (r : EnvRuntime) : Bool :=
  match r.stage with
  | .idle => true
  | .sustain => c.gated
  | .attack | .decay | .release => false

/-- The clamped output `v` of a ramping step whose ramp has advanced to `ramp` (40_envelope.md R116). -/
def envSample (free : Nat → Word) (ramp : F64) (r : EnvRuntime) : F64 :=
  clamp01 (fadd (free 1) r.base (fmul (free 2) r.delta (powFn ramp r.shape)))

/-- A ramping `env.step`, one that does not hold (40_envelope.md R116). -/
def envRamp (free : Nat → Word) (c : EnvConfig) (r : EnvRuntime) : EnvRuntime :=
  let ramp := fadd (free 0) r.ramp r.inc
  let remain := r.remain - 1
  let v := envSample free ramp r
  if remain = 0 then
    enterNext (freeFrom free 3) c v
      { r with ramp := posZero, remain := remain, base := v, amp := v, out := v }
  else
    { r with ramp := ramp, remain := remain, amp := v, out := v }

/-- `env.gate.on` (40_envelope.md R113). -/
def execEnvGateOn (s : State) : Host.Outcome State Fault Refusal :=
  .next (drawn { s with env := gateOn (freeWords s) s.envCfg s.env })

/-- `env.gate.off` for either value of `GATE_OFF_NEEDS_GATED`: nothing unless enabled
(40_envelope.md R114). -/
def gateOff (needsGated : Bool) (s : State) : State :=
  if gateOffEnabled needsGated s.envCfg s.env then
    drawn { s with env := enterRelease (freeWords s) s.envCfg s.env }
  else s

/-- `env.gate.off` (40_envelope.md R114). -/
def execEnvGateOff (s : State) : Host.Outcome State Fault Refusal :=
  .next (gateOff Config.gateOffNeedsGated s)

/-- `env.step` (40_envelope.md R116): a holding step only returns the held amplitude. -/
def execEnvStep (s : State) : Host.Outcome State Fault Refusal :=
  .next
    (if envHolds s.envCfg s.env then { s with env := { s.env with out := s.env.amp } }
    else drawn { s with env := envRamp (freeWords s) s.envCfg s.env })

/-- `env.reset` (40_envelope.md R120): the envelope's runtime registers at their reset values. -/
def execEnvReset (s : State) : Host.Outcome State Fault Refusal :=
  .next
    { s with
      env :=
        { stage := .idle
          remain := 0
          ramp := posZero
          inc := posZero
          delta := posZero
          shape := one64
          base := posZero
          amp := posZero
          out := posZero } }

end Sys2Proof.Machine
end

