-- ==== Sys2Proof/Machine/Oscillator.lean ====
section
/-! DEFINITION. The oscillator commands (41_oscillator.md R160 to R173), over the oscillator's
registers, and their meanings over the whole state. -/

namespace Sys2Proof.Machine

/-- The phase increment `dt` (41_oscillator.md R161). -/
def phaseIncrement (free : Word) (c : OscConfig) : F64 := fdiv free (fabs c.freq) c.srate

/-- `fold(x)` (41_oscillator.md R162), stated for a finite `x`; of another, a free word (log 8). -/
def fold (free : Word) (x : F64) : F64 :=
  if fle posZero x && flt x one64 then x
  else if isFinite x then fracPart x
  else free

/-- `polyBlep(t, dt)` (41_oscillator.md R164), terms in the written order. The formula is followed at
`t = 1.0` too, for every `dt`, where a remark of R169 has Saw and Square give 0.0 (DEDUCED, log 18). -/
def polyBlep (free : Nat → Word) (t dt : F64) : F64 :=
  if flt t dt then
    let u := fdiv (free 0) t dt
    fsub (free 1) (fsub (free 2) (fadd (free 3) u u) (fmul (free 4) u u)) one64
  else if flt (fsub (free 5) one64 dt) t then
    let u := fdiv (free 0) (fsub (free 1) t one64) dt
    fadd (free 2) (fadd (free 3) (fadd (free 4) (fmul (free 6) u u) u) u) one64
  else posZero

/-- Sine (41_oscillator.md R165). -/
def sineWave (free : Word) (t : F64) : F64 := sinFn (fmul free twoPi64 t)

/-- Saw (41_oscillator.md R166); at `t = 1.0` see log 18. -/
def sawWave (free : Nat → Word) (t dt : F64) : F64 :=
  fsub (free 0) (fsub (free 1) (fmul (free 2) two64 t) one64) (polyBlep (freeFrom free 3) t dt)

/-- Square (41_oscillator.md R167); at `t = 1.0` see log 18. -/
def squareWave (free : Nat → Word) (t dt : F64) : F64 :=
  let naive := if flt t half64 then one64 else negOne64
  let up := fadd (free 0) naive (polyBlep (freeFrom free 4) t dt)
  fsub (free 1) up (polyBlep (freeFrom free 11) (fold (free 2) (fadd (free 3) t half64)) dt)

/-- The new integrator value `v` of Triangle (41_oscillator.md R168). -/
def triangleIntegral (free : Nat → Word) (t dt last : F64) : F64 :=
  fadd (free 0) (fmul (free 1) dt (squareWave (freeFrom free 4) t dt))
    (fmul (free 2) (fsub (free 3) one64 dt) last)

/-- The instantaneous phase `t` (41_oscillator.md R163, R169). -/
def instantPhase (free : Nat → Word) (c : OscConfig) (r : OscRuntime) : F64 :=
  fold (free 0) (fadd (free 1) r.phase c.phofs)

/-- `osc.gen` on the oscillator's registers (41_oscillator.md R169); only Triangle writes `OSC_LAST`. -/
def oscSample (free : Nat → Word) (c : OscConfig) (r : OscRuntime) : OscRuntime :=
  let dt := phaseIncrement (free 0) c
  let t := instantPhase (freeFrom free 1) c r
  let phase := fold (free 3) (fadd (free 4) r.phase dt)
  match c.mode with
  | .sine => { r with phase := phase, out := sineWave (free 5) t }
  | .saw => { r with phase := phase, out := sawWave (freeFrom free 5) t dt }
  | .square => { r with phase := phase, out := squareWave (freeFrom free 5) t dt }
  | .triangle =>
    let v := triangleIntegral (freeFrom free 6) t dt r.last
    { phase := phase, last := v, out := fmul (free 5) two64 v }

/-- `osc.gen` (41_oscillator.md R169). -/
def execOscGen (s : State) : Host.Outcome State Fault Refusal :=
  .next (drawn { s with osc := oscSample (freeWords s) s.oscCfg s.osc })

/-- `osc.reset` (41_oscillator.md R173). -/
def execOscReset (s : State) : Host.Outcome State Fault Refusal :=
  .next { s with osc := { phase := posZero, last := posZero, out := posZero } }

end Sys2Proof.Machine
end

