-- ==== Sys2Proof/Machine/Dispatch.lean ====
section
/-! DEFINITION. What each command does, one arm per row of spec/opcode_table.json. -/

namespace Sys2Proof.Machine

def exec (i : Instr) (s : State) : Host.Outcome State Fault Refusal :=
  match i with
  | .nop => Sys2Proof.Machine.execNop s
  | .envGateOn => Sys2Proof.Machine.execEnvGateOn s
  | .envGateOff => Sys2Proof.Machine.execEnvGateOff s
  | .envStep => Sys2Proof.Machine.execEnvStep s
  | .envReset => Sys2Proof.Machine.execEnvReset s
  | .oscGen => Sys2Proof.Machine.execOscGen s
  | .oscReset => Sys2Proof.Machine.execOscReset s
  | .clrerr => Sys2Proof.Machine.execClrerr s

end Sys2Proof.Machine
end

