-- ==== Sys2Proof/Machine/Port.lean ====
section
/-! DEFINITION. The host port (20_memory.md R70 to R72), and what one input from outside does. -/

namespace Sys2Proof.Machine

/-- `PortRead(idx)` (20_memory.md R71): the word goes to `port.response` (log 2). -/
def portRead (idx : RegIndex) (s : State) : State :=
  match regAt idx with
  | some r => respond (some (readReg r s)) s
  | none => respond (some 0x0) (raiseError .access (readInfo idx) s)

/-- `execute(decode(v))` of a write to `CMD` (20_memory.md R72, 30_encoding.md R94). -/
def executeWord (v : Word) (s : State) : Host.Outcome State Fault Refusal :=
  match decode v with
  | .command i => exec i s
  | .illegal w => .next (raiseError .command w s)

/-- `PortWrite(idx, v)` on a state whose response is already cleared (20_memory.md R72). -/
def writeIndex (idx : RegIndex) (v : Word) (s : State) : Host.Outcome State Fault Refusal :=
  match regAt idx with
  | none => .next (raiseError .access (writeInfo idx) s)
  | some r =>
    match regKind r with
    | .ro => .next (raiseError .access (writeInfo idx) s)
    | .wo => executeWord v s
    | .rw =>
      if legalValue r v then .next (writeReg r v s)
      else .next (raiseError .value (writeInfo idx) s)

/-- `PortWrite(idx, v)` (20_memory.md R72): it returns nothing (R70). -/
def portWrite (idx : RegIndex) (v : Word) (s : State) : Host.Outcome State Fault Refusal :=
  writeIndex idx v (respond none s)

/-- One transaction or hard reset, performed whole (20_memory.md R76, 70_reset_and_hazards.md R260). -/
def performInput (i : Input) (s : State) : Host.Outcome State Fault Refusal :=
  match i with
  | .read idx => .next (portRead idx s)
  | .write idx v => portWrite idx v s
  | .hardReset => .next (hardReset s)

/-- The state with the inputs the host has yet to give. -/
def withInputs (inputs : List Input) (s : State) : State :=
  { s with port := { s.port with inputs := inputs } }

/-- The first pending input, in port order (20_memory.md R80); with none, CORE does nothing and keeps
every register (00_scope.md R3, 60_exceptions.md R247; log 1). -/
def takeInput (s : State) : Host.Outcome State Fault Refusal :=
  match s.port.inputs with
  | [] => .next s
  | i :: rest => performInput i (withInputs rest s)

end Sys2Proof.Machine
end

