-- ==== Sys2Proof/Machine/Step.lean ====
section
/-! DEFINITION. One step of the machine: one transaction, as one atomic step
(70_reset_and_hazards.md R275). -/

namespace Sys2Proof.Machine

/-- One step: the first pending input is performed (log 1). -/
def step (s : State) : Host.Outcome State Fault Refusal := takeInput s

/-- The host about to write a command word to `CMD`: how an instruction comes to run (log 1). -/
def State.withFetchWord (s : State) (nbits w : Nat) : State :=
  withInputs (.write (regIndex .cmd) (tableWord nbits w) :: s.port.inputs) s

end Sys2Proof.Machine
end

