-- ==== Sys2Proof/Machine/Assembler.lean ====
section
/-! DEFINITION. The assembler's lines as port transactions (30_encoding.md R98, R99; log 11). -/

namespace Sys2Proof.Machine

/-- The word of a value: an integer literal, or `f64(d)` = the encoding of `RNE(d)` (R98). -/
def asmWord : AsmValue → Word
  | .int w => w
  | .real neg num den => realLiteral neg num den

/-- `wr NAME, value` (R98). -/
def asmWrite (r : Reg) (v : AsmValue) : Input := .write (regIndex r) (asmWord v)

/-- A command mnemonic: `PortWrite(0x00, word)` with the word of R93 (R98). -/
def asmCommand (i : Instr) : Input := .write 0x00 (encode i)

/-- The transactions of a line; a pseudo-instruction is its expansion (R99). -/
def assemble : AsmLine → List Input
  | .wr r v => [asmWrite r v]
  | .rd r => [.read (regIndex r)]
  | .cmd i => [asmCommand i]
  | .envGate true => [asmCommand .envGateOn]
  | .envGate false => [asmCommand .envGateOff]
  | .oscSample f p => [asmWrite .oscFreq f, asmWrite .oscPhofs p, asmCommand .oscGen]
  | .envConfig g ad as dd ds dl sd rd rs =>
    [asmWrite .envGated g, asmWrite .envAtkDur ad, asmWrite .envAtkShape as,
      asmWrite .envDecDur dd, asmWrite .envDecShape ds, asmWrite .envDecLevel dl,
      asmWrite .envSusDur sd, asmWrite .envRelDur rd, asmWrite .envRelShape rs]

/-- The transactions of a program, in port order. -/
def assembleProgram (p : List AsmLine) : List Input := p.flatMap assemble

end Sys2Proof.Machine
end

