-- ==== Sys2Proof/Machine/Bridge.lean ====
section
/-! DEFINITION. A platform's bridge of the port into a byte-addressed bus (20_memory.md R73): whole
registers only; narrower accesses are the platform's and outside the spec (log 13). Addresses are
relative to where the platform puts the instance. -/

namespace Sys2Proof.Machine

/-- The byte address of byte `k` of register `idx` (20_memory.md R73). -/
def bridgeAddr (idx : RegIndex) (k : Fin 8) : Nat := 8 * idx.toNat + k.val

/-- Byte `k` of a word: bits `8k+7:8k` (20_memory.md R73). -/
def byteOf (w : Word) (k : Fin 8) : Byte := w.extractLsb' (8 * k.val) 8

/-- The word whose bytes these are, `b0` at the lowest address. -/
def wordOfBytes (b0 b1 b2 b3 b4 b5 b6 b7 : Byte) : Word :=
  b7 ++ (b6 ++ (b5 ++ (b4 ++ (b3 ++ (b2 ++ (b1 ++ b0))))))

/-- The register a whole, aligned 8-byte access at a byte address names; none if the address is not
the first byte of a register. -/
def bridgeIndex (addr : Nat) : Option RegIndex :=
  if addr % 8 = 0 ∧ addr < 512 then some (BitVec.ofNat 6 (addr / 8)) else none

/-- The transaction of a whole-register read at a byte address. -/
def bridgeRead (addr : Nat) : Option Input := (bridgeIndex addr).map .read

/-- The transaction of a whole-register write of eight bytes, the lowest address first. -/
def bridgeWrite (addr : Nat) (b0 b1 b2 b3 b4 b5 b6 b7 : Byte) : Option Input :=
  (bridgeIndex addr).map fun idx => .write idx (wordOfBytes b0 b1 b2 b3 b4 b5 b6 b7)

end Sys2Proof.Machine
end

