-- ==== Sys2Proof/Machine/Platform.lean ====
section
/-! DEFINITION. A platform's `N_CORE` instances, each with its own port and its own registers
(00_scope.md R6, 20_memory.md R82, 60_exceptions.md R245; log 7). -/

namespace Sys2Proof.Machine

/-- The instances of CORE a platform places. They share no state; that they read one source of free words
is the model's choice (DESIGN CHOICE, log 17). -/
structure Platform where
  cores : List State
deriving DecidableEq, Repr

/-- `N_CORE` instances after hard reset. -/
def platformReset : Platform := { cores := List.replicate Config.nCore State.reset }

/-- One step of the instance numbered `k`; a number that names no instance does nothing. -/
def platformStep (k : Nat) (p : Platform) : Host.Outcome Platform Fault Refusal :=
  match p.cores[k]? with
  | none => .next p
  | some s =>
    match step s with
    | .next t => .next { cores := p.cores.set k t }
    | .fault f => .fault f
    | .refused r => .refused r

/-- A host hands a transaction to the port of the instance numbered `k`, after those it already has. -/
def platformOffer (k : Nat) (i : Input) (p : Platform) : Platform :=
  { cores := p.cores.modify k fun s => withInputs (s.port.inputs ++ [i]) s }

end Sys2Proof.Machine
end

