-- ==== Sys2Proof/Safety.lean ====
section
/-! DEFINITION. What counts as a sound state of CORE: the invariants of 10_state.md R57 and R58 and of
the error record (R24, R25), in the terms the statements use. -/

namespace Sys2Proof.Machine

/-- In [0, 1] under the comparisons of 00_scope.md R11. -/
abbrev InUnit (x : F64) : Prop := fle posZero x = true ∧ fle x one64 = true

/-- (E5) of 10_state.md R57: every envelope configuration register holds a legal value. -/
abbrev EnvConfigLegal (c : EnvConfig) : Prop :=
  (c.atkDur ≠ 0 ∧ c.decDur ≠ 0 ∧ c.susDur ≠ 0 ∧ c.relDur ≠ 0) ∧
  (legalShape c.atkShape = true ∧ legalShape c.decShape = true ∧ legalShape c.relShape = true) ∧
  legalLevel c.decLevel = true

/-- (E2) of 10_state.md R57: what Idle implies. -/
abbrev EnvIdleAtRest (r : EnvRuntime) : Prop :=
  r.stage = .idle →
    r.remain = 0 ∧ r.ramp = posZero ∧ r.inc = posZero ∧ r.delta = posZero ∧ r.shape = one64 ∧
    r.base = posZero ∧ r.amp = posZero

/-- (E3) of 10_state.md R57: what the other four states imply. -/
abbrev EnvSegmentLive (r : EnvRuntime) : Prop :=
  r.stage ≠ .idle →
    1 ≤ r.remain.toNat ∧ legalShape r.shape = true ∧
    (isFinite r.ramp = true ∧ fle posZero r.ramp = true) ∧
    (isFinite r.inc = true ∧ fle posZero r.inc = true)

/-- (E4) of 10_state.md R57: the amplitudes are in [0, 1]; `ENV_BASE` and `ENV_AMP` are not `-0.0`. -/
abbrev EnvAmplitudesBounded (r : EnvRuntime) : Prop :=
  (InUnit r.base ∧ fsign r.base = false) ∧ (InUnit r.amp ∧ fsign r.amp = false) ∧ InUnit r.out

/-- The envelope invariants (E1) to (E5) of 10_state.md R57; (E1) is the type of `ENV_STATE`. -/
abbrev EnvInvariant (s : State) : Prop :=
  EnvIdleAtRest s.env ∧ EnvSegmentLive s.env ∧ EnvAmplitudesBounded s.env ∧ EnvConfigLegal s.envCfg

/-- A segment that ramps toward its end: Attack, Decay and Release (90_conflicts.md C2). -/
def rampingStage : Stage → Bool
  | .attack | .decay | .release => true
  | .idle | .sustain => false

/-- What else holds of a segment under way (40_envelope.md R112, R118, R124): in Sustain nothing ramps;
elsewhere the increment is in (0, 1], the ramp is at most the number of steps a segment can have taken,
and the delta's magnitude is at most 1. The part of the inductive invariant beyond R57. -/
abbrev EnvSegmentShaped (r : EnvRuntime) : Prop :=
  (r.stage = .sustain →
    r.ramp = posZero ∧ r.inc = posZero ∧ r.shape = one64 ∧ r.delta = posZero) ∧
  (rampingStage r.stage = true →
    (flt posZero r.inc = true ∧ fle r.inc one64 = true) ∧
    fle r.ramp (f64OfNat (2 ^ 32 - r.remain.toNat)) = true ∧
    (isFinite r.delta = true ∧ fle (fabs r.delta) one64 = true))

/-- The oscillator invariants (O1) and (O2) of 10_state.md R58; (O3) is the type of `OSC_MODE`. -/
abbrev OscInvariant (s : State) : Prop :=
  (isFinite s.osc.phase = true ∧ fle posZero s.osc.phase = true ∧ flt s.osc.phase one64 = true ∧
    fsign s.osc.phase = false) ∧
  (isFinite s.oscCfg.freq = true ∧ isFinite s.oscCfg.phofs = true ∧ legalRate s.oscCfg.srate = true)

/-- The index an `ERR_INFO` of cause 1 or 3 carries, bits 5:0 (10_state.md R25). -/
def infoIndex (w : Word) : RegIndex := w.setWidth 6

/-- The access kind of an index; none where it is unmapped (10_state.md R20, R22). -/
def kindAt (idx : RegIndex) : Option RegKind := (regAt idx).map regKind

/-- `ERR_INFO` of a value error: a write of an `RW` register (10_state.md R25, 60_exceptions.md R232). -/
abbrev ValueInfo (info : Word) : Prop :=
  info = writeInfo (infoIndex info) ∧ kindAt (infoIndex info) = some .rw

/-- `ERR_INFO` of a command error: an illegal word (10_state.md R25, 60_exceptions.md R233). -/
abbrev CommandInfo (info : Word) : Prop := decode info = .illegal info

/-- `ERR_INFO` of an access error: a read of an unmapped index, or a write of an unmapped index or an
`RO` register (10_state.md R25, 60_exceptions.md R234). -/
abbrev AccessInfo (info : Word) : Prop :=
  (info = readInfo (infoIndex info) ∧ kindAt (infoIndex info) = none) ∨
  (info = writeInfo (infoIndex info) ∧
    (kindAt (infoIndex info) = none ∨ kindAt (infoIndex info) = some .ro))

/-- `FIRST_CAUSE` names `c` and its sticky bit is set. -/
abbrev FirstErrorIs (c : Cause) (st : Word) : Prop :=
  firstCause st = causeCode c ∧ st &&& stickyBit c ≠ 0

/-- The error record (10_state.md R24, R25): bits 3 and 63:6 of `STATUS` read 0, and either nothing is
recorded or one of the three causes is the first and `ERR_INFO` is of that cause. -/
abbrev ErrorRecordSound (e : ErrorRecord) : Prop :=
  e.status &&& ~~~0x37#64 = 0 ∧
  ((e.status = 0 ∧ e.errInfo = 0) ∨
    (FirstErrorIs .value e.status ∧ ValueInfo e.errInfo) ∨
    (FirstErrorIs .command e.status ∧ CommandInfo e.errInfo) ∨
    (FirstErrorIs .access e.status ∧ AccessInfo e.errInfo))

/-- The invariant of CORE: R57 and R58 with what makes R57 inductive, and the error record's. -/
abbrev CoreInvariant (s : State) : Prop :=
  EnvInvariant s ∧ EnvSegmentShaped s.env ∧ OscInvariant s ∧ ErrorRecordSound s.err

/-- The registers of CORE alone, without the model's own fields: what two states must share to be the
same state of CORE (10_state.md R56). -/
abbrev SameRegisters (s t : State) : Prop :=
  s.err = t.err ∧ s.envCfg = t.envCfg ∧ s.env = t.env ∧ s.oscCfg = t.oscCfg ∧ s.osc = t.osc

/-- The same number, or both NaNs: the sign and payload of a NaN are not fixed (95_test_vectors.md P6;
log 3). -/
abbrev SameReal (x y : F64) : Prop := x = y ∨ (isNaN x = true ∧ isNaN y = true)

/-- `RNE` of `num / den` units is the encoding `r`: none is nearer, and on a tie with another `r` is even;
`infBits` stands for 2^1024 (00_scope.md R11). -/
abbrev RoundsTo (num den r : Nat) : Prop :=
  r ≤ infBits ∧ ∀ b, b ≤ infBits →
    |(unitsOf r * den : Int) - num| ≤ |(unitsOf b * den : Int) - num| ∧
    (|(unitsOf r * den : Int) - num| = |(unitsOf b * den : Int) - num| → b ≠ r → r % 2 = 0)

/-- The inputs performed one after another, each whole (20_memory.md R76, R80). -/
def performAll : List Input → State → Host.Outcome State Fault Refusal
  | [], s => .next s
  | i :: rest, s =>
    match performInput i s with
    | .next t => performAll rest t
    | .fault f => .fault f
    | .refused r => .refused r

/-- `n` writes of a command's word to `CMD`. -/
def commands (n : Nat) (i : Instr) : List Input := List.replicate n (.write (regIndex .cmd) (encode i))

/-- The errors of a list, raised in order (60_exceptions.md R231). -/
def recordErrors (es : List (Cause × Word)) (e : ErrorRecord) : ErrorRecord :=
  es.foldl (fun acc p => recordError p.1 p.2 acc) e

/-- The state after a state in the cycle of 40_envelope.md R110. -/
def nextStage : Stage → Stage
  | .idle => .idle
  | .attack => .decay
  | .decay => .sustain
  | .sustain => .release
  | .release => .idle

/-- The source's `while x >= 1.0: x <- x - 1.0` (41_oscillator.md R163), at most `n` tests. -/
def loopDown : Nat → F64 → Option F64
  | 0, _ => none
  | n + 1, x => if fle one64 x then loopDown n (fsub 0 x one64) else some x

/-- The source's `while x < 0.0: x <- x + 1.0` (41_oscillator.md R163), at most `n` tests. -/
def loopUp : Nat → F64 → Option F64
  | 0, _ => none
  | n + 1, x => if flt x posZero then loopUp n (fadd 0 x one64) else some x

/-- The source's fold, subtraction first (41_oscillator.md R163); none if `n` tests of a loop do not
end it. -/
def sourceFold (n : Nat) (x : F64) : Option F64 := (loopDown n x).bind (loopUp n)

end Sys2Proof.Machine
end

