-- ==== Sys2Proof/Certificates/Slice0/Obligations.lean ====
section
/-! DEFINITION. The statements about CORE, from the numbered rules of spec/. A literal 0 in the place of
a free word says that the value is the same whatever the free word is. -/

open Sys2Proof Sys2Proof.Machine

section Encoding

/-- 30_encoding.md R93: the word of each command, written out, decodes to it. -/
def Obligations.WordsOfTheOpcodeMapDecode : Prop :=
  decode 0x0000000000000000 = .command .nop ∧
  decode 0x0000000000000101 = .command .envGateOn ∧
  decode 0x0000000000000001 = .command .envGateOff ∧
  decode 0x0000000000000002 = .command .envStep ∧
  decode 0x0000000000000003 = .command .envReset ∧
  decode 0x0000000000000010 = .command .oscGen ∧
  decode 0x0000000000000011 = .command .oscReset ∧
  decode 0x0000000000000020 = .command .clrerr

/-- 30_encoding.md R94: decoding and encoding agree both ways, and a word names a command exactly if its
fields are legal (the second form of the rule). -/
def Obligations.DecodingIsExactlyTheFieldForm : Prop :=
  (∀ i : Instr, i.wellFormed = true ∧ decode (encode i) = .command i) ∧
  (∀ (w : Word) (i : Instr), decode w = .command i → encode i = w) ∧
  (∀ w : Word, wellFormedWord w = true ↔ ∃ i, decode w = .command i) ∧
  (∀ w : Word, wellFormedWord w = false → decode w = .illegal w)

/-- 10_state.md R23: a write to `CMD` performs the command its word decodes to; the step takes the
transaction from the host and returns nothing to it (logs 1, 2). -/
def Obligations.StepRunsTheDecodedCommand : Prop :=
  ∀ (s : State) (w : Word) (rest : List Input) (i : Instr),
    s.port.inputs = .write (regIndex .cmd) w :: rest → decode w = .command i →
      step s = exec i (respond none (withInputs rest s))

/-- 30_encoding.md R97 and 60_exceptions.md R233: every word but the eight of R93 raises a command error
and does nothing else. -/
def Obligations.IllegalWordOnlyRaisesCommandError : Prop :=
  ∀ (s : State) (w : Word),
    w ∉ [0x0000000000000000, 0x0000000000000101, 0x0000000000000001, 0x0000000000000002,
      0x0000000000000003, 0x0000000000000010, 0x0000000000000011, 0x0000000000000020] →
    wellFormedWord w = false ∧ decode w = .illegal w ∧
    performInput (.write 0x00 w) s =
      .next (respond none { s with err := recordError .command w s.err })

end Encoding

section Port

/-- 10_state.md R21 and 70_reset_and_hazards.md R260: each register's index, access kind and the word a
read returns after hard reset. -/
def Obligations.RegisterMapAfterReset : Prop :=
  (∀ r : Reg, r ∈ allRegs) ∧
  allRegs.map (fun r => (regIndex r, regKind r, readReg r State.reset)) =
    [ (0x00, .wo, 0x0), (0x01, .ro, 0x0), (0x02, .ro, 0x0),
      (0x08, .rw, 0x0), (0x09, .rw, 1), (0x0A, .rw, 0x3FF0000000000000),
      (0x0B, .rw, 1), (0x0C, .rw, 0x3FF0000000000000), (0x0D, .rw, 0x3FF0000000000000),
      (0x0E, .rw, 1), (0x0F, .rw, 1), (0x10, .rw, 0x3FF0000000000000),
      (0x18, .ro, 0), (0x19, .ro, 0), (0x1A, .ro, 0x0), (0x1B, .ro, 0x0), (0x1C, .ro, 0x0),
      (0x1D, .ro, 0x3FF0000000000000), (0x1E, .ro, 0x0), (0x1F, .ro, 0x0), (0x20, .ro, 0x0),
      (0x28, .rw, 0), (0x29, .rw, 0x0), (0x2A, .rw, 0x0), (0x2B, .rw, 0x40E5888000000000),
      (0x30, .ro, 0x0), (0x31, .ro, 0x0), (0x32, .ro, 0x0) ]

/-- 10_state.md R22: the unmapped indices. -/
def Obligations.UnmappedIndicesAreTheListedOnes : Prop :=
  ∀ idx : RegIndex, regAt idx = none ↔
    (0x03 ≤ idx.toNat ∧ idx.toNat ≤ 0x07) ∨ (0x11 ≤ idx.toNat ∧ idx.toNat ≤ 0x17) ∨
    (0x21 ≤ idx.toNat ∧ idx.toNat ≤ 0x27) ∨ (0x2C ≤ idx.toNat ∧ idx.toNat ≤ 0x2F) ∨
    (0x33 ≤ idx.toNat ∧ idx.toNat ≤ 0x3F)

/-- 20_memory.md R71: a read of a mapped register returns its word and has no other effect, a read of
`CMD` returns 0, and a read of an unmapped index returns 0 and raises an access error. The last clause
names the word of every register. -/
def Obligations.PortReadReturnsTheRegister : Prop :=
  (∀ (idx : RegIndex) (s : State),
    (∀ r, regAt idx = some r → r ≠ .cmd →
      performInput (.read idx) s = .next (respond (some (readReg r s)) s)) ∧
    (regAt idx = some .cmd → performInput (.read idx) s = .next (respond (some 0x0) s)) ∧
    (regAt idx = none →
      performInput (.read idx) s =
        .next (respond (some 0x0)
          { s with err := recordError .access (idx.setWidth 64) s.err }))) ∧
  ∀ s : State, allRegs.map (fun r => (r, readReg r s)) =
    [ (.cmd, 0x0), (.status, s.err.status), (.errInfo, s.err.errInfo),
      (.envGated, if s.envCfg.gated then 1 else 0),
      (.envAtkDur, s.envCfg.atkDur.setWidth 64), (.envAtkShape, s.envCfg.atkShape),
      (.envDecDur, s.envCfg.decDur.setWidth 64), (.envDecShape, s.envCfg.decShape),
      (.envDecLevel, s.envCfg.decLevel), (.envSusDur, s.envCfg.susDur.setWidth 64),
      (.envRelDur, s.envCfg.relDur.setWidth 64), (.envRelShape, s.envCfg.relShape),
      (.envState, match s.env.stage with
        | .idle => 0 | .attack => 1 | .decay => 2 | .sustain => 3 | .release => 4),
      (.envRemain, s.env.remain.setWidth 64), (.envRamp, s.env.ramp), (.envInc, s.env.inc),
      (.envDelta, s.env.delta), (.envShape, s.env.shape), (.envBase, s.env.base),
      (.envAmp, s.env.amp), (.envOut, s.env.out),
      (.oscMode, match s.oscCfg.mode with | .sine => 0 | .saw => 1 | .square => 2 | .triangle => 3),
      (.oscFreq, s.oscCfg.freq), (.oscPhofs, s.oscCfg.phofs), (.oscSrate, s.oscCfg.srate),
      (.oscPhase, s.osc.phase), (.oscLast, s.osc.last), (.oscOut, s.osc.out) ]

/-- 20_memory.md R72: what a write does, by the access kind of its index. -/
def Obligations.PortWriteFollowsTheAccessKind : Prop :=
  ∀ (idx : RegIndex) (v : Word) (s : State),
    (kindAt idx = none ∨ kindAt idx = some .ro →
      performInput (.write idx v) s =
        .next (respond none
          { s with err := recordError .access (idx.setWidth 64 ||| 0x100) s.err })) ∧
    (kindAt idx = some .wo → ∀ i, decode v = .command i →
      performInput (.write idx v) s = exec i (respond none s)) ∧
    (kindAt idx = some .wo → decode v = .illegal v →
      performInput (.write idx v) s =
        .next (respond none { s with err := recordError .command v s.err })) ∧
    (∀ r, regAt idx = some r → regKind r = .rw → legalValue r v = true →
      performInput (.write idx v) s = .next (respond none (writeReg r v s))) ∧
    (∀ r, regAt idx = some r → regKind r = .rw → legalValue r v = false →
      performInput (.write idx v) s =
        .next (respond none
          { s with err := recordError .value (idx.setWidth 64 ||| 0x100) s.err }))

/-- 20_memory.md R72: a legal write is stored bit for bit and changes only the written register. -/
def Obligations.LegalWriteChangesOnlyItsRegister : Prop :=
  ∀ (r : Reg) (v : Word) (s : State), regKind r = .rw → legalValue r v = true →
    readReg r (writeReg r v s) = v ∧
    (∀ r', r' ≠ r → readReg r' (writeReg r v s) = readReg r' s) ∧
    (writeReg r v s).port = s.port ∧ (writeReg r v s).draws = s.draws

/-- 60_exceptions.md R232: the rejected values of each `RW` register, by the bits of the word; a write
of one, and of no other, raises a value error and leaves every register as it was. -/
def Obligations.IllegalValuesAreRejected : Prop :=
  (∀ v : Word, legalValue .envGated v = true ↔ v = 0x0 ∨ v = 0x1) ∧
  (∀ r ∈ [Reg.envAtkDur, .envDecDur, .envSusDur, .envRelDur], ∀ v : Word,
    legalValue r v = true ↔ 1 ≤ v.toNat ∧ v.toNat ≤ 0xFFFFFFFF) ∧
  (∀ r ∈ [Reg.envAtkShape, .envDecShape, .envRelShape], ∀ v : Word,
    legalValue r v = true ↔ 0 < v.toNat ∧ v.toNat < 0x7FF0000000000000) ∧
  (∀ v : Word, legalValue .envDecLevel v = true ↔
    v.toNat ≤ 0x3FF0000000000000 ∨ v = 0x8000000000000000) ∧
  (∀ v : Word, legalValue .oscMode v = true ↔ v.toNat ≤ 3) ∧
  (∀ r ∈ [Reg.oscFreq, .oscPhofs], ∀ v : Word,
    legalValue r v = true ↔ v.toNat % 0x8000000000000000 < 0x7FF0000000000000) ∧
  (∀ v : Word, legalValue .oscSrate v = true ↔
    0x3FF0000000000000 ≤ v.toNat ∧ v.toNat < 0x7FF0000000000000) ∧
  (∀ (r : Reg) (v : Word) (s : State), regKind r = .rw → legalValue r v = false →
    performInput (.write (regIndex r) v) s =
      .next (respond none
        { s with err := recordError .value ((regIndex r).setWidth 64 ||| 0x100) s.err })) ∧
  (∀ (r : Reg) (v : Word) (s : State), regKind r = .rw → legalValue r v = true →
    performInput (.write (regIndex r) v) s = .next (respond none (writeReg r v s)))

/-- 20_memory.md R80: transactions are performed one at a time in port order: running the machine over
pending inputs is performing them one after another, and the rest stay pending. -/
def Obligations.InputsArePerformedInPortOrder : Prop :=
  ∀ (now later : List Input) (s : State),
    Sys2Proof.core.run now.length (withInputs (now ++ later) s) =
      performAll now (withInputs later s)

/-- 60_exceptions.md R238: every transaction completes; nothing stops, and the port takes the next. -/
def Obligations.EveryStepCompletes : Prop :=
  ∀ s : State, ∃ t, step s = .next t ∧ t.port.inputs = s.port.inputs.tail

/-- 60_exceptions.md R247 and 00_scope.md R3: with no transaction pending CORE does nothing and keeps
every register (log 1). -/
def Obligations.CoreIsPassive : Prop :=
  ∀ s : State, s.port.inputs = [] → step s = .next s

/-- 20_memory.md R73: through a bridge, register `idx` occupies bytes `8*idx` to `8*idx + 7`, byte `k`
holding bits `8k+7:8k`; a whole access at `8*idx` is the read or the write of that register. That the
other byte addresses name no access is the model's choice (log 13). -/
def Obligations.BridgeIsLittleEndian : Prop :=
  (∀ (w : Word) (k : Fin 8) (j : Fin 8), (byteOf w k)[j] = w.getLsbD (8 * k.val + j.val)) ∧
  (∀ w : Word, wordOfBytes (byteOf w 0) (byteOf w 1) (byteOf w 2) (byteOf w 3) (byteOf w 4)
    (byteOf w 5) (byteOf w 6) (byteOf w 7) = w) ∧
  (∀ (idx : RegIndex) (k : Fin 8), bridgeAddr idx k = 8 * idx.toNat + k.val ∧
    bridgeIndex (bridgeAddr idx k) = if k = 0 then some idx else none) ∧
  (∀ idx : RegIndex, bridgeRead (bridgeAddr idx 0) = some (.read idx)) ∧
  (∀ (idx : RegIndex) (w : Word),
    bridgeWrite (bridgeAddr idx 0) (byteOf w 0) (byteOf w 1) (byteOf w 2) (byteOf w 3) (byteOf w 4)
      (byteOf w 5) (byteOf w 6) (byteOf w 7) = some (.write idx w))

/-- 20_memory.md R82 and 60_exceptions.md R245: a step of one instance is that instance's step and
changes no other. -/
def Obligations.InstancesNeverInteract : Prop :=
  ∀ (k : Nat) (p : Platform), ∃ q, platformStep k p = .next q ∧
    q.cores.length = p.cores.length ∧
    (∀ j, j ≠ k → q.cores[j]? = p.cores[j]?) ∧
    (∀ s, p.cores[k]? = some s → ∃ t, step s = .next t ∧ q.cores[k]? = some t)

end Port

section Errors

/-- 60_exceptions.md R231: `raise` sets the error's sticky bit and records it if it is the first;
after any sequence of errors from a cleared record, bits 2:0 say which kinds occurred and
`FIRST_CAUSE` and `ERR_INFO` describe the first. -/
def Obligations.ErrorsAreRecordedAndTheFirstKept : Prop :=
  (∀ (c : Cause) (info : Word) (e : ErrorRecord),
    errValue (recordError c info e).status = (errValue e.status || c == .value) ∧
    errCmd (recordError c info e).status = (errCmd e.status || c == .command) ∧
    errAccess (recordError c info e).status = (errAccess e.status || c == .access) ∧
    (recordError c info e).status &&& ~~~0x37#64 = e.status &&& ~~~0x37#64 ∧
    (firstCause e.status = 0 → firstCause (recordError c info e).status = causeCode c ∧
      (recordError c info e).errInfo = info) ∧
    (firstCause e.status ≠ 0 → firstCause (recordError c info e).status = firstCause e.status ∧
      (recordError c info e).errInfo = e.errInfo)) ∧
  (∀ (first : Cause × Word) (later : List (Cause × Word)),
    let e := recordErrors (first :: later) { status := 0, errInfo := 0 }
    errValue e.status = (first :: later).any (fun p => p.1 == .value) ∧
    errCmd e.status = (first :: later).any (fun p => p.1 == .command) ∧
    errAccess e.status = (first :: later).any (fun p => p.1 == .access) ∧
    firstCause e.status = causeCode first.1 ∧ e.errInfo = first.2)

/-- 60_exceptions.md R237, 10_state.md R24: one input changes the error record by at most one `raise`,
of the one kind its transaction can raise, or clears it (`clrerr`, hard reset). -/
def Obligations.OneInputRaisesAtMostOneError : Prop :=
  ∀ (i : Input) (s t : State), performInput i s = .next t →
    t.err = s.err ∨
    (∃ r v, i = .write (regIndex r) v ∧ regKind r = .rw ∧ legalValue r v = false ∧
      t.err = recordError .value ((regIndex r).setWidth 64 ||| 0x100) s.err) ∨
    (∃ w, i = .write (regIndex .cmd) w ∧ decode w = .illegal w ∧
      t.err = recordError .command w s.err) ∨
    (∃ idx, i = .read idx ∧ kindAt idx = none ∧
      t.err = recordError .access (idx.setWidth 64) s.err) ∨
    (∃ idx v, i = .write idx v ∧ (kindAt idx = none ∨ kindAt idx = some .ro) ∧
      t.err = recordError .access (idx.setWidth 64 ||| 0x100) s.err) ∨
    (t.err = { status := 0x0, errInfo := 0x0 } ∧
      (i = .hardReset ∨ i = .write (regIndex .cmd) (encode .clrerr)))

/-- 60_exceptions.md R235: no command raises anything, in any state; `clrerr` alone changes the record. -/
def Obligations.CommandsRaiseNothing : Prop :=
  ∀ (i : Instr) (s : State), ∃ t, exec i s = .next t ∧ (i ≠ .clrerr → t.err = s.err)

/-- 42_control.md R211. -/
def Obligations.ClrerrClearsTheErrorRecord : Prop :=
  ∀ s : State, exec .clrerr s = .next { s with err := { status := 0x0, errInfo := 0x0 } }

/-- 42_control.md R210. -/
def Obligations.NopChangesNothing : Prop := ∀ s : State, exec .nop s = .next s

end Errors

section Reset

/-- 70_reset_and_hazards.md R260: hard reset, from any state, puts every register at its reset value,
and that state meets the invariants of 10_state.md R57 and R58. -/
def Obligations.HardResetSetsEveryRegister : Prop :=
  ∀ s : State, ∃ t, performInput .hardReset s = .next t ∧ SameRegisters t State.reset ∧
    EnvInvariant t ∧ OscInvariant t ∧
    allRegs.map (fun r => readReg r t) =
      [ 0x0, 0x0, 0x0,
        0x0, 1, 0x3FF0000000000000, 1, 0x3FF0000000000000, 0x3FF0000000000000, 1, 1,
        0x3FF0000000000000,
        0, 0, 0x0, 0x0, 0x0, 0x3FF0000000000000, 0x0, 0x0, 0x0,
        0, 0x0, 0x0, 0x40E5888000000000,
        0x0, 0x0, 0x0 ]

/-- 40_envelope.md R120: `env.reset`, in every state. -/
def Obligations.EnvResetRestoresIdle : Prop :=
  ∀ s : State, exec .envReset s =
    .next
      { s with
        env :=
          { stage := .idle
            remain := 0
            ramp := posZero
            inc := posZero
            delta := posZero
            shape := one64
            base := posZero
            amp := posZero
            out := posZero } }

/-- 41_oscillator.md R173: `osc.reset`, in every state. -/
def Obligations.OscResetClearsTheOscillator : Prop :=
  ∀ s : State, exec .oscReset s =
    .next { s with osc := { phase := posZero, last := posZero, out := posZero } }

/-- 70_reset_and_hazards.md R261: no command changes a configuration or operand register. -/
def Obligations.CommandsKeepTheConfiguration : Prop :=
  ∀ (i : Instr) (s : State), ∃ t, exec i s = .next t ∧
    t.envCfg = s.envCfg ∧ t.oscCfg = s.oscCfg ∧ t.port = s.port

/-- 70_reset_and_hazards.md R264: the reset configuration as a working envelope and oscillator. -/
def Obligations.ResetConfigurationWorks : Prop :=
  (∃ t1 t2 t3 t4,
    performAll [.write 0x00 0x101, .write 0x00 0x2] State.reset = .next t1 ∧
    performAll [.write 0x00 0x2] t1 = .next t2 ∧ performAll [.write 0x00 0x2] t2 = .next t3 ∧
    performAll [.write 0x00 0x2] t3 = .next t4 ∧
    t1.env.out = one64 ∧ t2.env.out = one64 ∧ t3.env.out = one64 ∧ t4.env.out = posZero ∧
    t4.env.stage = .idle) ∧
  (∃ t, performInput (.write 0x00 0x10) State.reset = .next t ∧
    t.osc.out = posZero ∧ t.osc.phase = posZero)

end Reset

section Envelope

/-- 40_envelope.md R111: `clamp01` answers a number in [0, 1], which is the operand if that is in
[0, 1], 1.0 above it, and `+0.0` below it or for a NaN. -/
def Obligations.ClampAnswersInUnit : Prop :=
  ∀ x : F64, InUnit (clamp01 x) ∧ (InUnit x → clamp01 x = x) ∧
    (flt one64 x = true → clamp01 x = one64) ∧
    (flt x posZero = true → clamp01 x = posZero) ∧ (isNaN x = true → clamp01 x = posZero)

/-- 40_envelope.md R113: `env.gate.on`, in every state, and a second one with no step between leaves the
same registers. Of a NaN amplitude, which no run reaches, the delta is some NaN. -/
def Obligations.GateOnStartsAttack : Prop :=
  (∀ s : State, isNaN s.env.amp = false →
    ∃ t u, exec .envGateOn s = .next t ∧ exec .envGateOn t = .next u ∧ SameRegisters t u) ∧
  ∀ s : State, ∃ (d : F64) (t : State), SameReal d (fsub 0 one64 s.env.amp) ∧
    exec .envGateOn s = .next t ∧
      SameRegisters t
        { s with
          env :=
            { stage := .attack
              remain := s.envCfg.atkDur
              ramp := posZero
              inc := fdiv 0 one64 (f64OfNat s.envCfg.atkDur.toNat)
              delta := d
              shape := s.envCfg.atkShape
              base := s.env.amp
              amp := s.env.amp
              out := s.env.out } }

/-- 40_envelope.md R114: `env.gate.off`, for either value of `GATE_OFF_NEEDS_GATED`, which is `false`
for this hardware. -/
def Obligations.GateOffStartsRelease : Prop :=
  (∀ s : State, exec .envGateOff s = .next (gateOff false s)) ∧
  ∀ (needsGated : Bool) (s : State),
    ((s.env.stage = .attack ∨ s.env.stage = .decay ∨ s.env.stage = .sustain) ∧
        (needsGated = true → s.envCfg.gated = true) →
      SameRegisters (gateOff needsGated s)
        { s with
          env :=
            { stage := .release
              remain := s.envCfg.relDur
              ramp := posZero
              inc := fdiv 0 one64 (f64OfNat s.envCfg.relDur.toNat)
              delta := fneg s.env.amp
              shape := s.envCfg.relShape
              base := s.env.amp
              amp := s.env.amp
              out := s.env.out } }) ∧
    (¬((s.env.stage = .attack ∨ s.env.stage = .decay ∨ s.env.stage = .sustain) ∧
        (needsGated = true → s.envCfg.gated = true)) →
      gateOff needsGated s = s)

/-- 40_envelope.md R115: in Idle, and in Sustain while `ENV_GATED` is 1, `env.step` returns the held
amplitude and changes nothing else. -/
def Obligations.StepHoldsInIdleAndGatedSustain : Prop :=
  ∀ s : State,
    s.env.stage = .idle ∨ (s.env.stage = .sustain ∧ s.envCfg.gated = true) →
      exec .envStep s = .next { s with env := { s.env with out := s.env.amp } }

/-- 40_envelope.md R116 and R112: a ramping `env.step`, inside a segment and at its end, in every state
that meets the invariants; its values do not depend on the free words. -/
def Obligations.StepAdvancesTheSegment : Prop :=
  ∀ s : State, CoreInvariant s →
    s.env.stage ≠ .idle → ¬(s.env.stage = .sustain ∧ s.envCfg.gated = true) →
    let ramp := fadd 0 s.env.ramp s.env.inc
    let v := clamp01 (fadd 0 s.env.base (fmul 0 s.env.delta (powFn ramp s.env.shape)))
    (s.env.remain ≠ 1 →
      ∃ t, exec .envStep s = .next t ∧
        SameRegisters t
          { s with
            env := { s.env with ramp := ramp, remain := s.env.remain - 1, amp := v, out := v } }) ∧
    (s.env.remain = 1 → s.env.stage = .attack →
      ∃ t, exec .envStep s = .next t ∧
        SameRegisters t
          { s with
            env :=
              { stage := .decay
                remain := s.envCfg.decDur
                ramp := posZero
                inc := fdiv 0 one64 (f64OfNat s.envCfg.decDur.toNat)
                delta := fneg (fsub 0 v s.envCfg.decLevel)
                shape := s.envCfg.decShape
                base := v
                amp := v
                out := v } }) ∧
    (s.env.remain = 1 → s.env.stage = .decay →
      ∃ t, exec .envStep s = .next t ∧
        SameRegisters t
          { s with
            env :=
              { stage := .sustain
                remain := s.envCfg.susDur
                ramp := posZero
                inc := posZero
                delta := posZero
                shape := one64
                base := v
                amp := v
                out := v } }) ∧
    (s.env.remain = 1 → s.env.stage = .sustain →
      ∃ t, exec .envStep s = .next t ∧
        SameRegisters t
          { s with
            env :=
              { stage := .release
                remain := s.envCfg.relDur
                ramp := posZero
                inc := fdiv 0 one64 (f64OfNat s.envCfg.relDur.toNat)
                delta := fneg v
                shape := s.envCfg.relShape
                base := v
                amp := v
                out := v } }) ∧
    (s.env.remain = 1 → s.env.stage = .release →
      ∃ t, exec .envStep s = .next t ∧
        SameRegisters t
          { s with
            env :=
              { stage := .idle
                remain := 0
                ramp := posZero
                inc := posZero
                delta := posZero
                shape := one64
                base := posZero
                amp := posZero
                out := v } })

/-- 40_envelope.md R124: the numeric domain of a ramping step. The sum is no NaN unless `powFn` gives
+Inf and the delta is a zero, and it is never `-0.0`. -/
def Obligations.RampingStepStaysInTheDomain : Prop :=
  ∀ (s : State) (free : Nat → Word), CoreInvariant s → envHolds s.envCfg s.env = false →
    let ramp := fadd (free 0) s.env.ramp s.env.inc
    let p := powFn ramp s.env.shape
    let sum := fadd (free 1) s.env.base (fmul (free 2) s.env.delta p)
    powDomain ramp s.env.shape = true ∧
    (s.env.stage = .sustain → ramp = posZero) ∧
    (s.env.stage ≠ .sustain → flt posZero ramp = true) ∧
    isNaN p = false ∧ fle posZero p = true ∧
    (isFinite s.env.delta = true ∧ fle (fabs s.env.delta) one64 = true) ∧
    (isInf p = false ∨ isZero s.env.delta = false → isNaN sum = false) ∧
    sum ≠ fneg posZero

/-- 40_envelope.md R116, corner cases: a step of an ungated Sustain returns the base amplitude. -/
def Obligations.UngatedSustainReturnsItsBase : Prop :=
  ∀ s : State, CoreInvariant s → s.env.stage = .sustain → s.envCfg.gated = false →
    ∃ t, exec .envStep s = .next t ∧ t.env.out = s.env.base

/-- 40_envelope.md R110: the five states' encodings, the transitions each input does make, and that no
other transition exists. The step that ends a segment is the one that finds `ENV_REMAIN` at 1 (R116). -/
def Obligations.OnlyTheseInputsChangeTheStage : Prop :=
  (∀ s : State, readReg .envState s =
    match s.env.stage with
    | .idle => 0
    | .attack => 1
    | .decay => 2
    | .sustain => 3
    | .release => 4) ∧
  State.reset.env.stage = .idle ∧
  (∀ s : State,
    (∃ t, performInput (.write (regIndex .cmd) (encode .envGateOn)) s = .next t ∧
      t.env.stage = .attack) ∧
    (s.env.stage = .attack ∨ s.env.stage = .decay ∨ s.env.stage = .sustain →
      ∃ t, performInput (.write (regIndex .cmd) (encode .envGateOff)) s = .next t ∧
        t.env.stage = .release) ∧
    (envHolds s.envCfg s.env = false → s.env.remain = 1 →
      ∃ t, performInput (.write (regIndex .cmd) (encode .envStep)) s = .next t ∧
        t.env.stage = nextStage s.env.stage) ∧
    (∃ t, performInput (.write (regIndex .cmd) (encode .envReset)) s = .next t ∧
      t.env.stage = .idle) ∧
    (∃ t, performInput .hardReset s = .next t ∧ t.env.stage = .idle)) ∧
  ∀ (i : Input) (s t : State), performInput i s = .next t → t.env.stage ≠ s.env.stage →
    (i = .write (regIndex .cmd) (encode .envGateOn) ∧ t.env.stage = .attack) ∨
    (i = .write (regIndex .cmd) (encode .envGateOff) ∧ t.env.stage = .release ∧
      (s.env.stage = .attack ∨ s.env.stage = .decay ∨ s.env.stage = .sustain)) ∨
    (i = .write (regIndex .cmd) (encode .envStep) ∧ s.env.stage ≠ .idle ∧
      t.env.stage = nextStage s.env.stage) ∨
    ((i = .write (regIndex .cmd) (encode .envReset) ∨ i = .hardReset) ∧ t.env.stage = .idle)

/-- 40_envelope.md R119: each envelope configuration register is read only at its points: two
configurations that agree on the registers a point reads give the same result there. -/
def Obligations.ConfigurationIsReadOnlyAtItsPoints : Prop :=
  ∀ (free : Nat → Word) (c d : EnvConfig) (r : EnvRuntime),
    (c.atkDur = d.atkDur → c.atkShape = d.atkShape → gateOn free c r = gateOn free d r) ∧
    (gateOffEnabled false c r = gateOffEnabled false d r) ∧
    (c.relDur = d.relDur → c.relShape = d.relShape → enterRelease free c r = enterRelease free d r) ∧
    (c.gated = d.gated → envHolds c r = envHolds d r) ∧
    (r.remain ≠ 1 → envRamp free c r = envRamp free d r) ∧
    (r.stage = .attack → c.decDur = d.decDur → c.decShape = d.decShape →
      c.decLevel = d.decLevel → envRamp free c r = envRamp free d r) ∧
    (r.stage = .decay → c.susDur = d.susDur → envRamp free c r = envRamp free d r) ∧
    (r.stage = .sustain → c.relDur = d.relDur → c.relShape = d.relShape →
      envRamp free c r = envRamp free d r) ∧
    (r.stage = .release → envRamp free c r = envRamp free d r)

/-- 40_envelope.md R121: a segment that ends hands its output on as the next base, but for Release,
after which the amplitude and the base are `+0.0`. -/
def Obligations.SegmentsAreContinuous : Prop :=
  ∀ s t : State, CoreInvariant s → exec .envStep s = .next t → t.env.stage ≠ s.env.stage →
    (s.env.stage ≠ .release → t.env.base = t.env.out ∧ t.env.amp = t.env.out) ∧
    (s.env.stage = .release → t.env.base = posZero ∧ t.env.amp = posZero)

/-- 40_envelope.md R122 and 10_state.md R57 (E4): what `env.step` returns is a number in [0, 1], and so
is what `ENV_AMP`, `ENV_BASE` and `ENV_OUT` hold after an `env.step` or any other input; the amplitudes
are not `-0.0`. -/
def Obligations.EnvelopeOutputStaysInUnit : Prop :=
  (∀ s : State, CoreInvariant s → ∃ t, exec .envStep s = .next t ∧ EnvAmplitudesBounded t.env) ∧
  ∀ (i : Input) (s t : State), CoreInvariant s → performInput i s = .next t →
    EnvAmplitudesBounded t.env

/-- 40_envelope.md R117: a gated Sustain holds for ever. -/
def Obligations.GatedSustainHoldsForEver : Prop :=
  ∀ (s : State) (n : Nat), s.env.stage = .sustain → s.envCfg.gated = true →
    ∃ t, performAll (commands n .envStep) s = .next t ∧
      SameRegisters t
        { s with env := { s.env with out := if n = 0 then s.env.out else s.env.amp } }

/-- 40_envelope.md R123: in Idle every `env.step` returns exactly `+0.0` and changes nothing but
`ENV_OUT`. -/
def Obligations.IdleReturnsZeroForEver : Prop :=
  ∀ (s : State) (n : Nat), CoreInvariant s → s.env.stage = .idle →
    ∃ t, performAll (commands n .envStep) s = .next t ∧
      SameRegisters t
        { s with env := { s.env with out := if n = 0 then s.env.out else posZero } }

/-- 40_envelope.md R118: a segment with `ENV_REMAIN = N` and no hold lasts exactly N steps, and the
N-th makes the transition. -/
def Obligations.SegmentLastsItsSteps : Prop :=
  ∀ (s : State) (n : Nat), CoreInvariant s → envHolds s.envCfg s.env = false →
    n ≤ s.env.remain.toNat →
    ∃ t, performAll (commands n .envStep) s = .next t ∧
      (n < s.env.remain.toNat →
        t.env.stage = s.env.stage ∧ t.env.remain.toNat = s.env.remain.toNat - n) ∧
      (n = s.env.remain.toNat → t.env.stage = nextStage s.env.stage)

/-- 40_envelope.md R118: an ungated cycle from Idle returns to Idle after exactly the sum of the four
durations. -/
def Obligations.UngatedCycleReturnsToIdle : Prop :=
  ∀ (s : State) (n : Nat), CoreInvariant s → s.env.stage = .idle → s.envCfg.gated = false →
    n ≤ s.envCfg.atkDur.toNat + s.envCfg.decDur.toNat + s.envCfg.susDur.toNat +
      s.envCfg.relDur.toNat →
    ∃ t, performAll (commands 1 .envGateOn ++ commands n .envStep) s = .next t ∧
      (t.env.stage = .idle ↔
        n = s.envCfg.atkDur.toNat + s.envCfg.decDur.toNat + s.envCfg.susDur.toNat +
          s.envCfg.relDur.toNat)

/-- 40_envelope.md R126: an `env.gate.off` in Attack, Decay or Sustain starts a Release of exactly
`ENV_REL_DUR` steps from the current amplitude, after which the envelope is Idle with `ENV_AMP` 0. -/
def Obligations.EarlyReleaseEndsInIdle : Prop :=
  ∀ (s : State) (n : Nat), CoreInvariant s →
    (s.env.stage = .attack ∨ s.env.stage = .decay ∨ s.env.stage = .sustain) →
    n ≤ s.envCfg.relDur.toNat →
    ∃ t, performAll (commands 1 .envGateOff ++ commands n .envStep) s = .next t ∧
      (n < s.envCfg.relDur.toNat →
        t.env.stage = .release ∧ t.env.base = s.env.amp ∧ t.env.delta = fneg s.env.amp) ∧
      (n = s.envCfg.relDur.toNat → t.env.stage = .idle ∧ t.env.amp = posZero)

/-- 40_envelope.md R125: the first step after an `env.gate.on` at amplitude `a` returns
`a + (1.0 - a) * powFn(inc, shape)`, clamped, and so no less than `a`. -/
def Obligations.RetriggerDoesNotJumpDown : Prop :=
  ∀ s : State, CoreInvariant s →
    ∃ t, performAll (commands 1 .envGateOn ++ commands 1 .envStep) s = .next t ∧
      t.env.out =
        clamp01 (fadd 0 s.env.amp (fmul 0 (fsub 0 one64 s.env.amp)
          (powFn (fdiv 0 one64 (f64OfNat s.envCfg.atkDur.toNat)) s.envCfg.atkShape))) ∧
      fle s.env.amp t.env.out = true

end Envelope

section Oscillator

/-- 41_oscillator.md R169, with the waveforms of R165 to R168: `osc.gen` in each mode, in every state
that meets the invariants. Only Triangle writes `OSC_LAST`, and only it can compute a NaN, whose sign and
payload are not fixed. The formulas hold at `t = 1.0` too (log 18). -/
def Obligations.OscGenMakesOneSample : Prop :=
  ∀ s : State, OscInvariant s →
    let dt := fdiv 0 (fabs s.oscCfg.freq) s.oscCfg.srate
    let t := fold 0 (fadd 0 s.osc.phase s.oscCfg.phofs)
    let blep := fun x => polyBlep (fun _ => 0) x dt
    let square :=
      fsub 0 (fadd 0 (if flt t half64 then one64 else negOne64) (blep t))
        (blep (fold 0 (fadd 0 t half64)))
    ∃ (last out : F64) (u : State), exec .oscGen s = .next u ∧
      SameRegisters u
        { s with osc := { phase := fold 0 (fadd 0 s.osc.phase dt), last := last, out := out } } ∧
      (s.oscCfg.mode = .sine → last = s.osc.last ∧ out = sinFn (fmul 0 twoPi64 t)) ∧
      (s.oscCfg.mode = .saw →
        last = s.osc.last ∧ out = fsub 0 (fsub 0 (fmul 0 two64 t) one64) (blep t)) ∧
      (s.oscCfg.mode = .square → last = s.osc.last ∧ out = square) ∧
      (s.oscCfg.mode = .triangle →
        SameReal last
          (fadd 0 (fmul 0 dt square) (fmul 0 (fsub 0 one64 dt) s.osc.last)) ∧
        SameReal out (fmul 0 two64 last))

/-- 41_oscillator.md R161: `dt` is finite, at least `+0.0`, never `-0.0`, at most `fabs(OSC_FREQ)`, and
the same for a frequency and its negation. -/
def Obligations.PhaseIncrementIsFiniteAndForward : Prop :=
  ∀ (c : OscConfig) (free : Word), isFinite c.freq = true → legalRate c.srate = true →
    let dt := fdiv free (fabs c.freq) c.srate
    phaseIncrement free c = dt ∧
    isFinite dt = true ∧ fle posZero dt = true ∧ fsign dt = false ∧ fle dt (fabs c.freq) = true ∧
    phaseIncrement free { c with freq := fneg c.freq } = dt

/-- 41_oscillator.md R162, R163: the range of `fold`: a number in [0, 1] that is congruent to the
operand exactly where that is at least 0, and 1.0 exactly for an operand from -2^-54 to below 0. -/
def Obligations.FoldBringsIntoUnit : Prop :=
  ∀ (x : F64) (free : Word), isFinite x = true →
    InUnit (fold free x) ∧
    (0 ≤ fvalue x → flt (fold free x) one64 = true ∧
      fvalue (fold free x) = fvalue x % (unitsPerOne : Int)) ∧
    (fold free x = one64 ↔ fle 0xBC90000000000000 x = true ∧ flt x posZero = true)

/-- 41_oscillator.md R163: below 2^53 in magnitude the source's loop ends with the value of `fold`, and
from 2^53 on `fold` answers `+0.0`. -/
def Obligations.FoldIsTheSourcesLoop : Prop :=
  ∀ (x : F64) (free : Word), isFinite x = true →
    (flt (fabs x) 0x4340000000000000 = true → ∃ n, sourceFold n x = some (fold free x)) ∧
    (fle 0x4340000000000000 (fabs x) = true → fold free x = posZero)

/-- 41_oscillator.md R163: after `osc.gen` the phase is in [0, 1) and not `-0.0`, and the instantaneous
phase is in [0, 1] and not `-0.0`. -/
def Obligations.PhaseStaysInRange : Prop :=
  ∀ (s : State) (free : Nat → Word), OscInvariant s →
    (∃ t, exec .oscGen s = .next t ∧ isFinite t.osc.phase = true ∧
      fle posZero t.osc.phase = true ∧ flt t.osc.phase one64 = true ∧ fsign t.osc.phase = false) ∧
    InUnit (instantPhase free s.oscCfg s.osc) ∧ fsign (instantPhase free s.oscCfg s.osc) = false

/-- 41_oscillator.md R164: `polyBlep` in its two windows, and `+0.0` outside them; a `dt` of zero has no
window; and neither division is by zero. The formula holds at `t = 1.0` for every `dt` (log 18). -/
def Obligations.PolyBlepIsZeroOutsideItsWindows : Prop :=
  ∀ (free : Nat → Word) (t dt : F64), InUnit t → isFinite dt = true → fle posZero dt = true →
    (flt t dt = true →
      let u := fdiv 0 t dt
      isZero dt = false ∧
      polyBlep free t dt = fsub 0 (fsub 0 (fadd 0 u u) (fmul 0 u u)) one64) ∧
    (flt t dt = false → flt (fsub 0 one64 dt) t = true →
      let u := fdiv 0 (fsub 0 t one64) dt
      isZero dt = false ∧
      polyBlep free t dt = fadd 0 (fadd 0 (fadd 0 (fmul 0 u u) u) u) one64) ∧
    (flt t dt = false → flt (fsub 0 one64 dt) t = false → polyBlep free t dt = posZero) ∧
    (isZero dt = true → polyBlep free t dt = posZero)

/-- 70_reset_and_hazards.md R273 and 41_oscillator.md R163: a phase sum from -2^-54 to below 0 folds to the
instantaneous phase 1.0, where Saw gives 0.0 for an increment above 2^-54 and at most 1.0, and Square
for one above 2^-54 and at most 0.5; for a smaller one, which corrects nothing (R164, R169), they give
the naive 1.0 and -1.0. That the formulas decide for which increments R273 holds is log 18's reading. -/
def Obligations.WavesAtPhaseOneFollowTheIncrement : Prop :=
  ∀ s : State, OscInvariant s →
    let x := fadd 0 s.osc.phase s.oscCfg.phofs
    let dt := fdiv 0 (fabs s.oscCfg.freq) s.oscCfg.srate
    let least : F64 := 0x3C90000000000000
    fle (fneg least) x = true → flt x posZero = true →
    fold 0 x = one64 ∧
    ∃ t, exec .oscGen s = .next t ∧
      (s.oscCfg.mode = .saw →
        (flt least dt = true → fle dt one64 = true → t.osc.out = posZero) ∧
        (fle dt least = true → t.osc.out = one64)) ∧
      (s.oscCfg.mode = .square →
        (flt least dt = true → fle dt half64 = true → t.osc.out = posZero) ∧
        (fle dt least = true → t.osc.out = negOne64))

/-- 41_oscillator.md R168: a NaN `OSC_LAST` stays NaN in Triangle mode for every `dt`, and the output
is NaN. -/
def Obligations.NaNIntegratorStaysNaN : Prop :=
  ∀ s : State, s.oscCfg.mode = .triangle → isNaN s.osc.last = true →
    ∃ t, exec .oscGen s = .next t ∧ isNaN t.osc.last = true ∧ isNaN t.osc.out = true

/-- 41_oscillator.md R172: a Sine output is finite and in [-1, 1]. -/
def Obligations.SineOutputStaysInRange : Prop :=
  ∀ s : State, OscInvariant s → s.oscCfg.mode = .sine →
    ∃ t, exec .oscGen s = .next t ∧ isFinite t.osc.out = true ∧
      fle negOne64 t.osc.out = true ∧ fle t.osc.out one64 = true

/-- 60_exceptions.md R235: outside Triangle mode `osc.gen` computes no infinity and no NaN. -/
def Obligations.OnlyTriangleLeavesTheFiniteNumbers : Prop :=
  ∀ s : State, OscInvariant s → s.oscCfg.mode ≠ .triangle →
    ∃ t, exec .oscGen s = .next t ∧ isFinite t.osc.out = true ∧ t.osc.last = s.osc.last

end Oscillator

section Channels

/-- 00_scope.md R2: the channels share no state but the error record: an envelope command leaves the
oscillator alone and its result depends on nothing of it, and the other way round. -/
def Obligations.ChannelsShareNoState : Prop :=
  (∀ i ∈ [Instr.envGateOn, .envGateOff, .envStep, .envReset], ∀ s t : State,
    s.envCfg = t.envCfg → s.env = t.env → s.draws = t.draws →
    ∃ s' t', exec i s = .next s' ∧ exec i t = .next t' ∧ s'.env = t'.env ∧
      s'.oscCfg = s.oscCfg ∧ s'.osc = s.osc ∧ s'.err = s.err) ∧
  (∀ i ∈ [Instr.oscGen, .oscReset], ∀ s t : State,
    s.oscCfg = t.oscCfg → s.osc = t.osc → s.draws = t.draws →
    ∃ s' t', exec i s = .next s' ∧ exec i t = .next t' ∧ s'.osc = t'.osc ∧
      s'.envCfg = s.envCfg ∧ s'.env = s.env ∧ s'.err = s.err)

end Channels

section Arithmetic

/-- 00_scope.md R10, R11: `RNE` answers the encoding nearest the exact number, the even one on a tie, with
2^1024 standing for infinity; the sum, difference, product and quotient of finite numbers are the exact
result rounded so, once. Magnitudes are in units of 2^-1074. The sign of a zero is IEEE 754's (log 15). -/
def Obligations.RoundingIsToNearestTiesToEven : Prop :=
  (∀ num den : Nat, 0 < den → RoundsTo num den (roundUnits num den)) ∧
  ∀ (free : Word) (a b : F64), isFinite a = true → isFinite b = true →
    (RoundsTo (fvalue a + fvalue b).natAbs 1 (fmag (fadd free a b)) ∧
      fsign (fadd free a b) =
        if fvalue a + fvalue b = 0 then fsign a && fsign b else decide (fvalue a + fvalue b < 0)) ∧
    (RoundsTo (fvalue a - fvalue b).natAbs 1 (fmag (fsub free a b)) ∧
      fsign (fsub free a b) =
        if fvalue a - fvalue b = 0 then fsign a && !fsign b else decide (fvalue a - fvalue b < 0)) ∧
    (RoundsTo ((fvalue a).natAbs * (fvalue b).natAbs) unitsPerOne (fmag (fmul free a b)) ∧
      fsign (fmul free a b) = (fsign a != fsign b)) ∧
    (isZero b = false →
      RoundsTo ((fvalue a).natAbs * unitsPerOne) (fvalue b).natAbs (fmag (fdiv free a b)) ∧
      fsign (fdiv free a b) = (fsign a != fsign b))

/-- 00_scope.md R12: `f64(n)` of an integer below 2^53 is that integer, exactly. -/
def Obligations.IntegersConvertExactly : Prop :=
  ∀ n : Nat, n < 2 ^ 53 → isFinite (f64OfNat n) = true ∧ fvalue (f64OfNat n) = n * unitsPerOne

/-- 00_scope.md R14: `powFn` has the laws P1 to P3 whatever the parameter behind it, and a parameter
that has them is taken as it is (log 4). -/
def Obligations.PowFnHasExactlyItsLaws : Prop :=
  (∀ raw, PowLaws (lawfulPow raw)) ∧ (∀ f, PowLaws f → lawfulPow f = f) ∧ PowLaws powFn

/-- 00_scope.md R15: `sinFn` has the laws S1 and S2 whatever the parameter behind it, and a parameter
that has them is taken as it is (log 5). -/
def Obligations.SinFnHasExactlyItsLaws : Prop :=
  (∀ raw, SinLaws (lawfulSin raw)) ∧ (∀ f, SinLaws f → lawfulSin f = f) ∧ SinLaws sinFn

end Arithmetic

section Invariants

/-- The invariant holds after hard reset. -/
def Obligations.InvariantHoldsAtReset : Prop := CoreInvariant State.reset

/-- Every step keeps the invariant, whatever input it performs, in every state that meets it. -/
def Obligations.EveryStepKeepsTheInvariant : Prop :=
  ∀ s t : State, CoreInvariant s → step s = .next t → CoreInvariant t

/-- 10_state.md R57, R58: the envelope and oscillator invariants hold in every state reachable from hard
reset through any inputs. -/
def Obligations.ReachableStatesMeetTheInvariants : Prop :=
  ∀ (inputs : List Input) (t : State), performAll inputs State.reset = .next t →
    EnvInvariant t ∧ OscInvariant t ∧
    (readReg .envState t).toNat ≤ 4 ∧ (readReg .oscMode t).toNat ≤ 3

end Invariants
end

