-- ==== Sys2Proof/Laws/Binary64.lean ====
section
/-! SUPPORT. What rounding and the binary64 operations do, said once: encodings are ordered as their
magnitudes, rounding lies between neighbours, is exact on encodings and monotone. -/

namespace Sys2Proof.Machine

section Units

/-- `n` last places of exponent `e` are encoded as `e * 2^52 + n`. -/
theorem unitsOf_scaled {e n : Nat} (hn : n ≤ 2 ^ 53) (he : e = 0 ∨ 2 ^ 52 ≤ n) :
    unitsOf (e * 2 ^ 52 + n) = n * 2 ^ e := by
  unfold unitsOf
  rcases Nat.lt_or_ge n (2 ^ 52) with h | h
  · obtain rfl : e = 0 := by omega
    rw [if_pos (by omega)]
    simp
  · rcases Nat.lt_or_ge n (2 ^ 53) with h' | h'
    · have h1 : (e * 2 ^ 52 + n) / 2 ^ 52 = e + 1 := by omega
      have h2 : (e * 2 ^ 52 + n) % 2 ^ 52 = n - 2 ^ 52 := by omega
      rw [h1, h2, if_neg (by omega), show 2 ^ 52 + (n - 2 ^ 52) = n by omega]
      rfl
    · obtain rfl : n = 2 ^ 53 := by omega
      have h1 : (e * 2 ^ 52 + 2 ^ 53) / 2 ^ 52 = e + 2 := by omega
      have h2 : (e * 2 ^ 52 + 2 ^ 53) % 2 ^ 52 = 0 := by omega
      rw [h1, h2, if_neg (by omega), show e + 2 - 1 = e + 1 by omega, Nat.pow_succ]
      ring

/-- Neighbouring encodings encode neighbouring magnitudes. -/
theorem unitsOf_lt_succ (b : Nat) : unitsOf b < unitsOf (b + 1) := by
  rcases Nat.lt_or_ge b (2 ^ 52) with h | h
  · have h1 := unitsOf_scaled (e := 0) (n := b) (by omega) (Or.inl rfl)
    have h2 := unitsOf_scaled (e := 0) (n := b + 1) (by omega) (Or.inl rfl)
    simp only [Nat.zero_mul, Nat.zero_add, Nat.pow_zero, Nat.mul_one] at h1 h2
    omega
  · obtain ⟨e, n, hb, hn, hn'⟩ : ∃ e n, b = e * 2 ^ 52 + n ∧ 2 ^ 52 ≤ n ∧ n < 2 ^ 53 :=
      ⟨b / 2 ^ 52 - 1, b % 2 ^ 52 + 2 ^ 52, by omega, by omega, by omega⟩
    subst hb
    rw [Nat.add_assoc, unitsOf_scaled (by omega) (Or.inr hn),
      unitsOf_scaled (n := n + 1) (by omega) (Or.inr (by omega))]
    exact Nat.mul_lt_mul_of_pos_right (Nat.lt_succ_self n) (Nat.two_pow_pos e)

theorem unitsOf_strictMono : StrictMono unitsOf := strictMono_nat_of_lt_succ unitsOf_lt_succ

@[simp] theorem unitsOf_lt_iff {b c : Nat} : unitsOf b < unitsOf c ↔ b < c :=
  unitsOf_strictMono.lt_iff_lt

@[simp] theorem unitsOf_le_iff {b c : Nat} : unitsOf b ≤ unitsOf c ↔ b ≤ c :=
  unitsOf_strictMono.le_iff_le

@[simp] theorem unitsOf_inj {b c : Nat} : unitsOf b = unitsOf c ↔ b = c :=
  unitsOf_strictMono.injective.eq_iff

@[simp] theorem unitsOf_zero : unitsOf 0 = 0 := rfl

theorem unitsOf_pos {b : Nat} (h : 0 < b) : 0 < unitsOf b := by
  simpa using unitsOf_strictMono h

theorem unitsPerOne_eq : unitsPerOne = 2 ^ 1074 := by unfold unitsPerOne; rfl

theorem unitsPerOne_pos : 0 < unitsPerOne := by
  rw [unitsPerOne_eq]; exact Nat.two_pow_pos _

theorem unitsOf_one64 : unitsOf (fmag one64) = unitsPerOne := by decide +kernel

end Units

section Rounding

variable {num den : Nat}

/-- What `roundUnits` answers: of the two encodings `b` and `b + 1` next to the exact magnitude, the
nearer one, the even one on a tie, and infinity past the largest finite one. -/
theorem roundUnits_spec (num : Nat) (hd : 0 < den) :
    ∃ b, unitsOf b * den ≤ num ∧ num < unitsOf (b + 1) * den ∧
      roundUnits num den =
        min (if (unitsOf b + unitsOf (b + 1)) * den < 2 * num ∨
            ((unitsOf b + unitsOf (b + 1)) * den = 2 * num ∧ b % 2 = 1) then b + 1 else b)
          infBits := by
  obtain ⟨e, he⟩ : ∃ e, e = Nat.log2 (num / den) - 52 := ⟨_, rfl⟩
  obtain ⟨n, hn⟩ : ∃ n, n = num / (den * 2 ^ e) := ⟨_, rfl⟩
  have hpe : 0 < 2 ^ e := Nat.two_pow_pos e
  have hulp : 0 < den * 2 ^ e := Nat.mul_pos hd hpe
  have hq : n = num / den / 2 ^ e := by rw [hn, Nat.div_div_eq_div_mul]
  have hsize : n < 2 ^ 53 ∧ (e = 0 ∨ 2 ^ 52 ≤ n) := by
    rcases Nat.eq_zero_or_pos (num / den) with hz | hpos
    · rw [hz, Nat.zero_div] at hq
      have : Nat.log2 0 = 0 := by decide
      rw [hz, this] at he
      omega
    · have hlo : 2 ^ Nat.log2 (num / den) ≤ num / den := Nat.log2_self_le (by omega)
      have hhi : num / den < 2 ^ (Nat.log2 (num / den) + 1) := Nat.lt_log2_self
      rcases Nat.lt_or_ge 52 (Nat.log2 (num / den)) with h | h
      · have hl : Nat.log2 (num / den) = 52 + e := by omega
        rw [hl] at hlo hhi
        refine ⟨?_, Or.inr ?_⟩
        · rw [hq]
          apply Nat.div_lt_of_lt_mul
          calc num / den < 2 ^ (52 + e + 1) := hhi
            _ = 2 ^ e * 2 ^ 53 := by rw [← Nat.pow_add]; congr 1; omega
        · rw [hq, Nat.le_div_iff_mul_le hpe, ← Nat.pow_add]
          exact hlo
      · have he0 : e = 0 := by omega
        have : 2 ^ (Nat.log2 (num / den) + 1) ≤ 2 ^ 53 :=
          Nat.pow_le_pow_right (by decide) (by omega)
        refine ⟨?_, Or.inl he0⟩
        rw [hq, he0, Nat.pow_zero, Nat.div_one]
        omega
  have hu : unitsOf (e * 2 ^ 52 + n) = n * 2 ^ e := unitsOf_scaled (by omega) hsize.2
  have hu1 : unitsOf (e * 2 ^ 52 + n + 1) = (n + 1) * 2 ^ e := by
    rw [Nat.add_assoc]
    exact unitsOf_scaled (by omega) (by omega)
  have hmod : den * 2 ^ e * n + num % (den * 2 ^ e) = num := by
    rw [hn]; exact Nat.div_add_mod num _
  have hr : num % (den * 2 ^ e) < den * 2 ^ e := Nat.mod_lt _ hulp
  have e1 : n * 2 ^ e * den = den * 2 ^ e * n := by ring
  have e2 : (n + 1) * 2 ^ e * den = den * 2 ^ e * n + den * 2 ^ e := by ring
  refine ⟨e * 2 ^ 52 + n, ?_, ?_, ?_⟩
  · rw [hu, e1]; omega
  · rw [hu1, e2]; omega
  · have hpar : (e * 2 ^ 52 + n) % 2 = n % 2 := by omega
    have hsum : (unitsOf (e * 2 ^ 52 + n) + unitsOf (e * 2 ^ 52 + n + 1)) * den
        = 2 * (den * 2 ^ e * n) + den * 2 ^ e := by
      rw [hu, hu1, Nat.add_mul, e1, e2]; ring
    have hcond : ((unitsOf (e * 2 ^ 52 + n) + unitsOf (e * 2 ^ 52 + n + 1)) * den < 2 * num ∨
        ((unitsOf (e * 2 ^ 52 + n) + unitsOf (e * 2 ^ 52 + n + 1)) * den = 2 * num ∧
          (e * 2 ^ 52 + n) % 2 = 1)) ↔
        (den * 2 ^ e < 2 * (num % (den * 2 ^ e)) ∨
          (2 * (num % (den * 2 ^ e)) = den * 2 ^ e ∧ n % 2 = 1)) := by
      rw [hsum, hpar]; omega
    rw [if_congr hcond rfl rfl]
    unfold roundUnits
    simp only [← he, ← hn]
    congr 1
    split <;> omega

theorem roundUnits_le_infBits (num den : Nat) : roundUnits num den ≤ infBits := Nat.min_le_right _ _

/-- Rounding does not pass an encoding that bounds the exact magnitude from above. -/
theorem roundUnits_le {b : Nat} (hd : 0 < den) (h : num ≤ unitsOf b * den) :
    roundUnits num den ≤ b := by
  obtain ⟨c, h1, h2, hr⟩ := roundUnits_spec num hd
  have hcb : unitsOf c ≤ unitsOf b := Nat.le_of_mul_le_mul_right (Nat.le_trans h1 h) hd
  rw [unitsOf_le_iff] at hcb
  rw [hr]
  rcases Nat.lt_or_eq_of_le hcb with hlt | rfl
  · refine Nat.le_trans (Nat.min_le_left _ _) ?_
    split <;> omega
  · have hlt := Nat.mul_lt_mul_of_pos_right (unitsOf_lt_succ c) hd
    have hc : ¬ ((unitsOf c + unitsOf (c + 1)) * den < 2 * num ∨
        ((unitsOf c + unitsOf (c + 1)) * den = 2 * num ∧ c % 2 = 1)) := by
      rw [Nat.add_mul]; omega
    rw [if_neg hc]
    exact Nat.min_le_left _ _

/-- Rounding does not pass an encoding that bounds the exact magnitude from below. -/
theorem le_roundUnits {b : Nat} (hd : 0 < den) (hb : b ≤ infBits) (h : unitsOf b * den ≤ num) :
    b ≤ roundUnits num den := by
  obtain ⟨c, h1, h2, hr⟩ := roundUnits_spec num hd
  have hbc : unitsOf b < unitsOf (c + 1) := Nat.lt_of_mul_lt_mul_right (Nat.lt_of_le_of_lt h h2)
  rw [unitsOf_lt_iff] at hbc
  rw [hr]
  refine Nat.le_min.2 ⟨?_, hb⟩
  split <;> omega

/-- Rounding is exact on encodings. -/
theorem roundUnits_exact {b : Nat} (hd : 0 < den) (hb : b ≤ infBits) :
    roundUnits (unitsOf b * den) den = b :=
  Nat.le_antisymm (roundUnits_le hd (Nat.le_refl _)) (le_roundUnits hd hb (Nat.le_refl _))

theorem roundUnits_exact_one {b : Nat} (hb : b ≤ infBits) : roundUnits (unitsOf b) 1 = b := by
  simpa using roundUnits_exact (den := 1) (by decide) hb

/-- Rounding is monotone in the exact magnitude. -/
theorem roundUnits_mono {num' den' : Nat} (hd : 0 < den) (hd' : 0 < den')
    (h : num * den' ≤ num' * den) : roundUnits num den ≤ roundUnits num' den' := by
  obtain ⟨b, h1, h2, hr⟩ := roundUnits_spec num hd
  obtain ⟨c, h3, h4, hr'⟩ := roundUnits_spec num' hd'
  have hbc : unitsOf b < unitsOf (c + 1) := by
    have : unitsOf b * (den * den') < unitsOf (c + 1) * (den * den') := by
      calc unitsOf b * (den * den') = unitsOf b * den * den' := by ring
        _ ≤ num * den' := Nat.mul_le_mul_right _ h1
        _ ≤ num' * den := h
        _ < unitsOf (c + 1) * den' * den := Nat.mul_lt_mul_of_pos_right h4 hd
        _ = unitsOf (c + 1) * (den * den') := by ring
    exact Nat.lt_of_mul_lt_mul_right this
  rw [unitsOf_lt_iff] at hbc
  rw [hr, hr']
  apply min_le_min_right
  rcases Nat.lt_or_eq_of_le (Nat.lt_succ_iff.1 hbc) with hlt | rfl
  · split <;> split <;> omega
  · have hmul : ∀ s, s * den < 2 * num → s * den' < 2 * num' := by
      intro s hs
      have : s * den' * den < 2 * num' * den := by
        calc s * den' * den = s * den * den' := by ring
          _ < 2 * num * den' := Nat.mul_lt_mul_of_pos_right hs hd'
          _ = 2 * (num * den') := by ring
          _ ≤ 2 * (num' * den) := Nat.mul_le_mul_left _ h
          _ = 2 * num' * den := by ring
      exact Nat.lt_of_mul_lt_mul_right this
    have hmul' : ∀ s, s * den = 2 * num → s * den' ≤ 2 * num' := by
      intro s hs
      have : s * den' * den ≤ 2 * num' * den := by
        calc s * den' * den = s * den * den' := by ring
          _ = 2 * num * den' := by rw [hs]
          _ = 2 * (num * den') := by ring
          _ ≤ 2 * (num' * den) := Nat.mul_le_mul_left _ h
          _ = 2 * num' * den := by ring
      exact Nat.le_of_mul_le_mul_right this hd
    have key : ((unitsOf b + unitsOf (b + 1)) * den < 2 * num ∨
        ((unitsOf b + unitsOf (b + 1)) * den = 2 * num ∧ b % 2 = 1)) →
        ((unitsOf b + unitsOf (b + 1)) * den' < 2 * num' ∨
        ((unitsOf b + unitsOf (b + 1)) * den' = 2 * num' ∧ b % 2 = 1)) := by
      rintro (hs | ⟨hs, ho⟩)
      · exact Or.inl (hmul _ hs)
      · rcases Nat.lt_or_eq_of_le (hmul' _ hs) with hl | he
        · exact Or.inl hl
        · exact Or.inr ⟨he, ho⟩
    split
    · rename_i hc
      rw [if_pos (key hc)]
    · split <;> omega

@[simp] theorem roundUnits_zero (den : Nat) : roundUnits 0 den = 0 := by
  simp [roundUnits]

end Rounding

section Encodings

theorem fmag_lt (x : F64) : fmag x < 2 ^ 63 := Nat.mod_lt _ (by decide)

theorem infBits_lt : infBits < 2 ^ 63 := by decide

theorem toNat_eq_fmag (x : F64) : x.toNat = fmag x + if fsign x then 2 ^ 63 else 0 := by
  have h := x.isLt
  have hs : fsign x = decide (2 ^ 63 ≤ x.toNat) := by
    simp [fsign, BitVec.msb_eq_decide]
  unfold fmag
  rw [hs]
  split <;> simp_all <;> omega

/-- An encoding is its sign and its magnitude. -/
theorem eq_of_fsign_fmag {x y : F64} (hs : fsign x = fsign y) (hm : fmag x = fmag y) : x = y := by
  apply BitVec.eq_of_toNat_eq
  rw [toNat_eq_fmag, toNat_eq_fmag, hs, hm]

theorem toNat_packF {neg : Bool} {bits : Nat} (h : bits < 2 ^ 63) :
    (packF neg bits).toNat = bits + if neg then 2 ^ 63 else 0 := by
  unfold packF
  rw [BitVec.toNat_ofNat]
  apply Nat.mod_eq_of_lt
  split <;> omega

@[simp] theorem fsign_packF {neg : Bool} {bits : Nat} (h : bits < 2 ^ 63) :
    fsign (packF neg bits) = neg := by
  have := toNat_packF (neg := neg) h
  cases neg <;> simp_all [fsign, BitVec.msb_eq_decide]

@[simp] theorem fmag_packF {neg : Bool} {bits : Nat} (h : bits < 2 ^ 63) :
    fmag (packF neg bits) = bits := by
  have := toNat_packF (neg := neg) h
  unfold fmag
  rw [this]
  cases neg <;> simp <;> omega

theorem packF_fsign_fmag (x : F64) : packF (fsign x) (fmag x) = x :=
  eq_of_fsign_fmag (fsign_packF (fmag_lt x)) (fmag_packF (fmag_lt x))

theorem roundUnits_lt (num den : Nat) : roundUnits num den < 2 ^ 63 :=
  Nat.lt_of_le_of_lt (roundUnits_le_infBits num den) infBits_lt

theorem isNaN_eq_false {x : F64} : isNaN x = false ↔ fmag x ≤ infBits := by simp [isNaN]

theorem isFinite_iff {x : F64} : isFinite x = true ↔ fmag x < infBits := by simp [isFinite]

theorem isNaN_of_isFinite {x : F64} (h : isFinite x = true) : isNaN x = false := by
  simp only [isFinite, isNaN, decide_eq_true_eq, decide_eq_false_iff_not] at *; omega

theorem isInf_of_isFinite {x : F64} (h : isFinite x = true) : isInf x = false := by
  simp only [isFinite, isInf, decide_eq_true_eq, beq_eq_false_iff_ne] at *; omega

theorem fmag_freeNaN (w : Word) : fmag (freeNaN w) = infBits + max (fmag w % 2 ^ 52) 1 := by
  apply fmag_packF
  have : fmag w % 2 ^ 52 < 2 ^ 52 := Nat.mod_lt _ (by decide)
  have : infBits = 2047 * 2 ^ 52 := by decide
  omega

/-- What stands where an operation produces a NaN is a NaN, whatever the free word. -/
@[simp] theorem isNaN_freeNaN (w : Word) : isNaN (freeNaN w) = true := by
  simp only [isNaN, decide_eq_true_eq, fmag_freeNaN]
  omega

/-- Every NaN is the one some free word gives (log 3). -/
theorem freeNaN_of_isNaN {x : F64} (h : isNaN x = true) : freeNaN x = x := by
  simp only [isNaN, decide_eq_true_eq] at h
  have h2 := fmag_lt x
  have h3 : infBits = 2047 * 2 ^ 52 := by decide
  apply eq_of_fsign_fmag
  · unfold freeNaN
    apply fsign_packF
    have : fmag x % 2 ^ 52 < 2 ^ 52 := Nat.mod_lt _ (by decide)
    omega
  · rw [fmag_freeNaN]
    omega

end Encodings

section Signed

theorem fvalue_packF {neg : Bool} {bits : Nat} (h : bits < 2 ^ 63) :
    fvalue (packF neg bits) = if neg then -(unitsOf bits : Int) else (unitsOf bits : Int) := by
  unfold fvalue
  rw [fsign_packF h, fmag_packF h]

theorem natAbs_fvalue (x : F64) : (fvalue x).natAbs = unitsOf (fmag x) := by
  unfold fvalue; split <;> simp

@[simp] theorem fmag_fneg (x : F64) : fmag (fneg x) = fmag x := fmag_packF (fmag_lt x)

@[simp] theorem fsign_fneg (x : F64) : fsign (fneg x) = !fsign x := fsign_packF (fmag_lt x)

@[simp] theorem fmag_fabs (x : F64) : fmag (fabs x) = fmag x := fmag_packF (fmag_lt x)

@[simp] theorem fsign_fabs (x : F64) : fsign (fabs x) = false := fsign_packF (fmag_lt x)

@[simp] theorem fvalue_fneg (x : F64) : fvalue (fneg x) = -fvalue x := by
  unfold fvalue
  rw [fsign_fneg, fmag_fneg]
  cases fsign x <;> simp

@[simp] theorem fneg_fneg (x : F64) : fneg (fneg x) = x :=
  eq_of_fsign_fmag (by simp) (by simp)

@[simp] theorem isFinite_fneg (x : F64) : isFinite (fneg x) = isFinite x := by simp [isFinite]

@[simp] theorem isNaN_fneg (x : F64) : isNaN (fneg x) = isNaN x := by simp [isNaN]

@[simp] theorem isFinite_fabs (x : F64) : isFinite (fabs x) = isFinite x := by simp [isFinite]

/-- The value of a rounded integer: its sign, and its rounded magnitude. -/
theorem fvalue_roundInt (zn : Bool) (z : Int) :
    fvalue (roundInt zn z) =
      if z < 0 then -(unitsOf (roundUnits z.natAbs 1) : Int) else unitsOf (roundUnits z.natAbs 1) := by
  unfold roundInt
  rw [fvalue_packF (roundUnits_lt _ _)]
  by_cases hz : z = 0
  · subst hz
    simp
  · by_cases hn : z < 0 <;> simp [hz, hn]

@[simp] theorem fmag_roundInt (zn : Bool) (z : Int) :
    fmag (roundInt zn z) = roundUnits z.natAbs 1 := fmag_packF (roundUnits_lt _ _)

theorem fsign_roundInt (zn : Bool) (z : Int) :
    fsign (roundInt zn z) = if z = 0 then zn else decide (z < 0) := fsign_packF (roundUnits_lt _ _)

@[simp] theorem isNaN_roundInt (zn : Bool) (z : Int) : isNaN (roundInt zn z) = false := by
  rw [isNaN_eq_false, fmag_roundInt]
  exact roundUnits_le_infBits _ _

/-- Rounding an integer does not pass a value above it. -/
theorem fvalue_roundInt_le {zn : Bool} {z : Int} {x : F64} (hx : isNaN x = false)
    (h : z ≤ fvalue x) : fvalue (roundInt zn z) ≤ fvalue x := by
  rw [isNaN_eq_false] at hx
  rw [fvalue_roundInt]
  unfold fvalue at *
  cases hs : fsign x <;> simp only [hs, Bool.false_eq_true, if_true, if_false] at h ⊢
  · split
    · omega
    · have := roundUnits_le (b := fmag x) (num := z.natAbs) (den := 1) (by decide) (by omega)
      rw [← unitsOf_le_iff] at this
      omega
  · by_cases hz : z < 0
    · rw [if_pos hz]
      have := le_roundUnits (b := fmag x) (num := z.natAbs) (den := 1) (by decide) hx (by omega)
      rw [← unitsOf_le_iff] at this
      omega
    · have h0 : unitsOf (fmag x) = 0 := by omega
      have hz0 : z = 0 := by omega
      subst hz0
      simp [h0]

/-- Rounding an integer does not pass a value below it. -/
theorem le_fvalue_roundInt {zn : Bool} {z : Int} {x : F64} (hx : isNaN x = false)
    (h : fvalue x ≤ z) : fvalue x ≤ fvalue (roundInt zn z) := by
  rw [isNaN_eq_false] at hx
  rw [fvalue_roundInt]
  unfold fvalue at *
  cases hs : fsign x <;> simp only [hs, Bool.false_eq_true, if_true, if_false] at h ⊢
  · by_cases hz : z < 0
    · omega
    · rw [if_neg hz]
      have := le_roundUnits (b := fmag x) (num := z.natAbs) (den := 1) (by decide) hx (by omega)
      rw [← unitsOf_le_iff] at this
      omega
  · split
    · have := roundUnits_le (b := fmag x) (num := z.natAbs) (den := 1) (by decide) (by omega)
      rw [← unitsOf_le_iff] at this
      omega
    · omega

/-- Rounding an integer that is a finite value gives that value. -/
theorem fvalue_roundInt_exact {zn : Bool} {x : F64} (hx : isNaN x = false) :
    fvalue (roundInt zn (fvalue x)) = fvalue x :=
  Int.le_antisymm (fvalue_roundInt_le hx (Int.le_refl _)) (le_fvalue_roundInt hx (Int.le_refl _))

/-- A rounded integer is finite if a finite value's magnitude bounds it. -/
theorem isFinite_roundInt {zn : Bool} {z : Int} {x : F64} (hx : isFinite x = true)
    (h : z.natAbs ≤ unitsOf (fmag x)) : isFinite (roundInt zn z) = true := by
  rw [isFinite_iff] at *
  rw [fmag_roundInt]
  exact Nat.lt_of_le_of_lt (roundUnits_le (by decide) (by omega)) hx

/-- The sum of finite numbers is the exact sum, rounded once. -/
theorem fadd_of_finite {free : Word} {a b : F64} (ha : isFinite a = true) (hb : isFinite b = true) :
    fadd free a b = roundInt (fsign a && fsign b) (fvalue a + fvalue b) := by
  simp [fadd, isNaN_of_isFinite, isInf_of_isFinite, ha, hb]

/-- The difference of finite numbers is the exact difference, rounded once. -/
theorem fsub_of_finite {free : Word} {a b : F64} (ha : isFinite a = true) (hb : isFinite b = true) :
    fsub free a b = roundInt (fsign a && !fsign b) (fvalue a - fvalue b) := by
  rw [fsub, fadd_of_finite ha (by simpa using hb), fsign_fneg, fvalue_fneg, Int.sub_eq_add_neg]

/-- The product of finite numbers is the exact product, rounded once. -/
theorem fmul_of_finite {free : Word} {a b : F64} (ha : isFinite a = true) (hb : isFinite b = true) :
    fmul free a b = packF (fsign a != fsign b)
      (roundUnits (unitsOf (fmag a) * unitsOf (fmag b)) unitsPerOne) := by
  simp [fmul, isNaN_of_isFinite, isInf_of_isFinite, ha, hb]

/-- The quotient of finite numbers, the divisor not zero, is the exact quotient, rounded once. -/
theorem fdiv_of_finite {free : Word} {a b : F64} (ha : isFinite a = true) (hb : isFinite b = true)
    (h0 : isZero b = false) :
    fdiv free a b = packF (fsign a != fsign b)
      (roundUnits (unitsOf (fmag a) * unitsPerOne) (unitsOf (fmag b))) := by
  simp [fdiv, isNaN_of_isFinite, isInf_of_isFinite, ha, hb, h0]

theorem flt_iff {a b : F64} :
    flt a b = true ↔ isNaN a = false ∧ isNaN b = false ∧ fvalue a < fvalue b := by
  simp [flt, and_assoc]

theorem fle_iff {a b : F64} :
    fle a b = true ↔ isNaN a = false ∧ isNaN b = false ∧ fvalue a ≤ fvalue b := by
  simp [fle, and_assoc]

@[simp] theorem fvalue_posZero : fvalue posZero = 0 := by decide

@[simp] theorem isFinite_posZero : isFinite posZero = true := by decide

@[simp] theorem isNaN_posZero : isNaN posZero = false := by decide

@[simp] theorem fvalue_one64 : fvalue one64 = (unitsPerOne : Int) := by decide +kernel

@[simp] theorem isFinite_one64 : isFinite one64 = true := by decide

@[simp] theorem isNaN_one64 : isNaN one64 = false := by decide

end Signed

end Sys2Proof.Machine
end

