-- ==== Sys2Proof/Laws/Numeric.lean ====
section
/-! SUPPORT. Bounds of the binary64 operations that the invariants rest on. -/

namespace Sys2Proof.Machine

section Bounds

variable {free : Word} {a b x : F64}

theorem isFinite_of_bounds {lo hi : F64} (hlo : isFinite lo = true) (hhi : isFinite hi = true)
    (h1 : fle lo x = true) (h2 : fle x hi = true) : isFinite x = true := by
  rw [fle_iff] at h1 h2
  rw [isFinite_iff] at *
  have h3 := isNaN_eq_false.1 h1.2.1
  rcases Nat.lt_or_eq_of_le h3 with h | h
  · exact h
  · exfalso
    have hl := unitsOf_lt_iff.2 hlo
    have hh := unitsOf_lt_iff.2 hhi
    have := h1.2.2
    have := h2.2.2
    unfold fvalue at *
    rw [h] at *
    cases hsl : fsign lo <;> cases hsx : fsign x <;> cases hsh : fsign hi <;>
      simp only [hsl, hsx, hsh, Bool.false_eq_true, if_true, if_false] at * <;> omega

/-- A number of zero value has a zero encoding. -/
theorem isZero_iff_fvalue : isZero x = true ↔ fvalue x = 0 := by
  have h : isZero x = true ↔ fmag x = 0 := by simp [isZero]
  rw [h]
  constructor
  · intro h0
    simp [fvalue, h0]
  · intro h0
    by_contra hne
    have := unitsOf_pos (Nat.pos_of_ne_zero hne)
    unfold fvalue at h0
    split at h0 <;> omega

/-- Two numbers of one sign and one value are one encoding. -/
theorem eq_of_fvalue {y : F64} (hs : fsign x = fsign y) (hv : fvalue x = fvalue y) : x = y := by
  refine eq_of_fsign_fmag hs ?_
  have : unitsOf (fmag x) = unitsOf (fmag y) := by
    rw [← natAbs_fvalue, ← natAbs_fvalue, hv]
  simpa using this

/-- A number that is not below zero and not `-0.0` has a clear sign. -/
theorem fsign_eq_false_of_pos (h : 0 < fvalue x) : fsign x = false := by
  unfold fvalue at h
  by_contra hs
  simp only [Bool.not_eq_false] at hs
  rw [if_pos hs] at h
  omega

theorem fvalue_nonneg_of_fsign (h : fsign x = false) : 0 ≤ fvalue x := by
  simp [fvalue, h]

/-- A finite sum does not pass a number above the exact sum. -/
theorem fadd_le (ha : isFinite a = true) (hb : isFinite b = true) (hx : isNaN x = false)
    (h : fvalue a + fvalue b ≤ fvalue x) : fvalue (fadd free a b) ≤ fvalue x := by
  rw [fadd_of_finite ha hb]
  exact fvalue_roundInt_le hx h

/-- A finite sum does not pass a number below the exact sum. -/
theorem le_fadd (ha : isFinite a = true) (hb : isFinite b = true) (hx : isNaN x = false)
    (h : fvalue x ≤ fvalue a + fvalue b) : fvalue x ≤ fvalue (fadd free a b) := by
  rw [fadd_of_finite ha hb]
  exact le_fvalue_roundInt hx h

theorem isNaN_fadd_of_finite (ha : isFinite a = true) (hb : isFinite b = true) :
    isNaN (fadd free a b) = false := by
  rw [fadd_of_finite ha hb]
  exact isNaN_roundInt _ _

/-- A finite sum that a finite magnitude bounds is finite. -/
theorem isFinite_fadd (ha : isFinite a = true) (hb : isFinite b = true) (hx : isFinite x = true)
    (h : (fvalue a + fvalue b).natAbs ≤ unitsOf (fmag x)) : isFinite (fadd free a b) = true := by
  rw [fadd_of_finite ha hb]
  exact isFinite_roundInt hx h

/-- A finite sum is independent of the free word. -/
theorem fadd_free (free' : Word) (ha : isFinite a = true) (hb : isFinite b = true) :
    fadd free a b = fadd free' a b := by rw [fadd_of_finite ha hb, fadd_of_finite ha hb]

/-- A finite difference is independent of the free word. -/
theorem fsub_free (free' : Word) (ha : isFinite a = true) (hb : isFinite b = true) :
    fsub free a b = fsub free' a b := fadd_free free' ha (by simpa using hb)

/-- The largest finite number. -/
theorem fmag_le_max (h : isFinite x = true) : fmag x ≤ fmag (0x7FEFFFFFFFFFFFFF : F64) := by
  rw [isFinite_iff] at h
  have h1 : fmag (0x7FEFFFFFFFFFFFFF : F64) + 1 = infBits := by decide
  omega

/-- The sum of a finite number and one no larger than 1.0 is finite. -/
theorem isFinite_fadd_small (ha : isFinite a = true) (hb : isFinite b = true)
    (h1 : fle (fabs b) one64 = true) : isFinite (fadd free a b) = true := by
  rw [fadd_of_finite ha hb, isFinite_iff, fmag_roundInt]
  obtain ⟨c, hc1, hc2, hr⟩ := roundUnits_spec (fvalue a + fvalue b).natAbs (den := 1) (by decide)
  have hb1 : unitsOf (fmag b) ≤ unitsPerOne := by
    have h := (fle_iff.1 h1).2.2
    rw [fvalue_one64] at h
    have h2 : fvalue (fabs b) = (unitsOf (fmag b) : Int) := by simp [fvalue]
    omega
  have ha1 := fmag_le_max ha
  rw [← unitsOf_le_iff] at ha1
  have hsum : (fvalue a + fvalue b).natAbs ≤ unitsOf (fmag a) + unitsOf (fmag b) := by
    rw [← natAbs_fvalue, ← natAbs_fvalue]; omega
  have hgap : 2 * unitsPerOne < unitsOf infBits - unitsOf (fmag (0x7FEFFFFFFFFFFFFF : F64)) := by
    decide +kernel
  have h63 : fmag (0x7FEFFFFFFFFFFFFF : F64) + 1 = infBits := by decide
  have hlt := unitsOf_lt_succ (fmag (0x7FEFFFFFFFFFFFFF : F64))
  rw [h63] at hlt
  simp only [Nat.mul_one] at hc1 hc2 hr
  have hcb : c < infBits := by
    rw [← unitsOf_lt_iff]; omega
  rw [hr]
  refine Nat.lt_of_le_of_lt (Nat.min_le_left _ _) ?_
  rcases Nat.lt_or_ge (c + 1) infBits with h | h
  · split <;> omega
  · have hce : c = fmag (0x7FEFFFFFFFFFFFFF : F64) := by omega
    rw [if_neg]
    · exact hcb
    · rw [hce, h63]
      omega

/-- A quotient of finite numbers, the divisor not zero, is no NaN and is independent of the free word. -/
theorem fdiv_free (free' : Word) (ha : isFinite a = true) (hb : isFinite b = true)
    (h0 : isZero b = false) : fdiv free a b = fdiv free' a b := by
  rw [fdiv_of_finite ha hb h0, fdiv_of_finite ha hb h0]

/-- A quotient of numbers not below zero, the dividend no larger than `x` times the divisor, is no
larger than `x`. -/
theorem fmag_fdiv_le (ha : isFinite a = true) (hb : isFinite b = true) (h0 : isZero b = false)
    (h : unitsOf (fmag a) * unitsPerOne ≤ unitsOf (fmag x) * unitsOf (fmag b)) :
    fmag (fdiv free a b) ≤ fmag x := by
  have hb0 : 0 < unitsOf (fmag b) := unitsOf_pos (by simpa [isZero, Nat.pos_iff_ne_zero] using h0)
  rw [fdiv_of_finite ha hb h0, fmag_packF (roundUnits_lt _ _)]
  exact roundUnits_le hb0 h

/-- A product of finite numbers no larger than a bound. -/
theorem fmag_fmul_le (ha : isFinite a = true) (hb : isFinite b = true)
    (h : unitsOf (fmag a) * unitsOf (fmag b) ≤ unitsOf (fmag x) * unitsPerOne) :
    fmag (fmul free a b) ≤ fmag x := by
  rw [fmul_of_finite ha hb, fmag_packF (roundUnits_lt _ _)]
  exact roundUnits_le unitsPerOne_pos h

theorem fsign_fmul (ha : isFinite a = true) (hb : isFinite b = true) :
    fsign (fmul free a b) = (fsign a != fsign b) := by
  rw [fmul_of_finite ha hb, fsign_packF (roundUnits_lt _ _)]

theorem fsign_fdiv (ha : isFinite a = true) (hb : isFinite b = true) (h0 : isZero b = false) :
    fsign (fdiv free a b) = (fsign a != fsign b) := by
  rw [fdiv_of_finite ha hb h0, fsign_packF (roundUnits_lt _ _)]

/-- Adding `+0.0` changes nothing but the sign of a zero. -/
theorem fadd_posZero (ha : isFinite a = true) (hs : fsign a = false) : fadd free a posZero = a := by
  rw [fadd_of_finite ha isFinite_posZero, fvalue_posZero, Int.add_zero]
  apply eq_of_fvalue
  · rw [fsign_roundInt]
    have := fvalue_nonneg_of_fsign hs
    by_cases h : fvalue a = 0 <;> simp [h, hs]
    omega
  · exact fvalue_roundInt_exact (isNaN_of_isFinite ha)

/-- Adding to `+0.0` gives the number, but for the sign of a zero. -/
theorem posZero_fadd (ha : isFinite a = true) (hs : fsign a = false) : fadd free posZero a = a := by
  rw [fadd_of_finite isFinite_posZero ha, fvalue_posZero, Int.zero_add]
  apply eq_of_fvalue
  · rw [fsign_roundInt]
    have := fvalue_nonneg_of_fsign hs
    have h0 : fsign posZero = false := by decide
    by_cases h : fvalue a = 0 <;> simp [h, hs, h0]
    omega
  · exact fvalue_roundInt_exact (isNaN_of_isFinite ha)

end Bounds

section Integers

/-- A whole number below 2^53 is an encoded magnitude. -/
theorem exists_unitsOf_nat {n : Nat} (hn : n < 2 ^ 53) :
    ∃ b, b < infBits ∧ unitsOf b = n * unitsPerOne := by
  rcases Nat.eq_zero_or_pos n with rfl | hpos
  · exact ⟨0, by decide, by simp⟩
  · obtain ⟨k, hk⟩ : ∃ k, k = Nat.log2 n := ⟨_, rfl⟩
    have hlo : 2 ^ k ≤ n := by rw [hk]; exact Nat.log2_self_le (by omega)
    have hhi : n < 2 ^ (k + 1) := by rw [hk]; exact Nat.lt_log2_self
    have hk52 : k ≤ 52 := by
      by_contra h
      have : 2 ^ 53 ≤ 2 ^ k := Nat.pow_le_pow_right (by decide) (by omega)
      omega
    have h1 : 2 ^ 52 ≤ n * 2 ^ (52 - k) := by
      calc 2 ^ 52 = 2 ^ k * 2 ^ (52 - k) := by rw [← Nat.pow_add]; congr 1; omega
        _ ≤ n * 2 ^ (52 - k) := Nat.mul_le_mul_right _ hlo
    have h2 : n * 2 ^ (52 - k) < 2 ^ 53 := by
      calc n * 2 ^ (52 - k) < 2 ^ (k + 1) * 2 ^ (52 - k) :=
            Nat.mul_lt_mul_of_pos_right hhi (Nat.two_pow_pos _)
        _ = 2 ^ 53 := by rw [← Nat.pow_add]; congr 1; omega
    refine ⟨(1022 + k) * 2 ^ 52 + n * 2 ^ (52 - k), ?_, ?_⟩
    · have : infBits = 2047 * 2 ^ 52 := by decide
      omega
    · rw [unitsOf_scaled (by omega) (Or.inr h1), Nat.mul_assoc, ← Nat.pow_add,
        show 52 - k + (1022 + k) = 1074 by omega, unitsPerOne_eq]

end Integers

end Sys2Proof.Machine
end

