-- ==== Sys2Proof/Laws/State.lean ====
section
/-! SUPPORT. One lemma for each field of the state and each shared update, so that no proof unfolds a
record update. -/

namespace Sys2Proof.Machine

variable (s : State)

@[simp] theorem respond_err (w : Option Word) : (respond w s).err = s.err := rfl

@[simp] theorem respond_envCfg (w : Option Word) : (respond w s).envCfg = s.envCfg := rfl

@[simp] theorem respond_env (w : Option Word) : (respond w s).env = s.env := rfl

@[simp] theorem respond_oscCfg (w : Option Word) : (respond w s).oscCfg = s.oscCfg := rfl

@[simp] theorem respond_osc (w : Option Word) : (respond w s).osc = s.osc := rfl

@[simp] theorem respond_port (w : Option Word) : (respond w s).port = { s.port with response := w } := rfl

@[simp] theorem respond_draws (w : Option Word) : (respond w s).draws = s.draws := rfl

@[simp] theorem raiseError_err (c : Cause) (info : Word) : (raiseError c info s).err = recordError c info s.err := rfl

@[simp] theorem raiseError_envCfg (c : Cause) (info : Word) : (raiseError c info s).envCfg = s.envCfg := rfl

@[simp] theorem raiseError_env (c : Cause) (info : Word) : (raiseError c info s).env = s.env := rfl

@[simp] theorem raiseError_oscCfg (c : Cause) (info : Word) : (raiseError c info s).oscCfg = s.oscCfg := rfl

@[simp] theorem raiseError_osc (c : Cause) (info : Word) : (raiseError c info s).osc = s.osc := rfl

@[simp] theorem raiseError_port (c : Cause) (info : Word) : (raiseError c info s).port = s.port := rfl

@[simp] theorem raiseError_draws (c : Cause) (info : Word) : (raiseError c info s).draws = s.draws := rfl

@[simp] theorem clearErrors_err : (clearErrors s).err = { status := 0x0, errInfo := 0x0 } := rfl

@[simp] theorem clearErrors_envCfg : (clearErrors s).envCfg = s.envCfg := rfl

@[simp] theorem clearErrors_env : (clearErrors s).env = s.env := rfl

@[simp] theorem clearErrors_oscCfg : (clearErrors s).oscCfg = s.oscCfg := rfl

@[simp] theorem clearErrors_osc : (clearErrors s).osc = s.osc := rfl

@[simp] theorem clearErrors_port : (clearErrors s).port = s.port := rfl

@[simp] theorem clearErrors_draws : (clearErrors s).draws = s.draws := rfl

@[simp] theorem hardReset_err : (hardReset s).err = State.reset.err := rfl

@[simp] theorem hardReset_envCfg : (hardReset s).envCfg = State.reset.envCfg := rfl

@[simp] theorem hardReset_env : (hardReset s).env = State.reset.env := rfl

@[simp] theorem hardReset_oscCfg : (hardReset s).oscCfg = State.reset.oscCfg := rfl

@[simp] theorem hardReset_osc : (hardReset s).osc = State.reset.osc := rfl

@[simp] theorem hardReset_port : (hardReset s).port = { inputs := s.port.inputs, response := none } := rfl

@[simp] theorem hardReset_draws : (hardReset s).draws = s.draws := rfl

@[simp] theorem drawn_err : (drawn s).err = s.err := rfl

@[simp] theorem drawn_envCfg : (drawn s).envCfg = s.envCfg := rfl

@[simp] theorem drawn_env : (drawn s).env = s.env := rfl

@[simp] theorem drawn_oscCfg : (drawn s).oscCfg = s.oscCfg := rfl

@[simp] theorem drawn_osc : (drawn s).osc = s.osc := rfl

@[simp] theorem drawn_port : (drawn s).port = s.port := rfl

@[simp] theorem drawn_draws : (drawn s).draws = s.draws + 1 := rfl

@[simp] theorem withInputs_err (is : List Input) : (withInputs is s).err = s.err := rfl

@[simp] theorem withInputs_envCfg (is : List Input) : (withInputs is s).envCfg = s.envCfg := rfl

@[simp] theorem withInputs_env (is : List Input) : (withInputs is s).env = s.env := rfl

@[simp] theorem withInputs_oscCfg (is : List Input) : (withInputs is s).oscCfg = s.oscCfg := rfl

@[simp] theorem withInputs_osc (is : List Input) : (withInputs is s).osc = s.osc := rfl

@[simp] theorem withInputs_port (is : List Input) : (withInputs is s).port = { s.port with inputs := is } := rfl

@[simp] theorem withInputs_draws (is : List Input) : (withInputs is s).draws = s.draws := rfl

end Sys2Proof.Machine
end

