-- ==== Sys2Proof/Laws/Ops.lean ====
section
/-! SUPPORT. What each shared operation can do, said once; the statements' proofs cite these instead of
unfolding the operations. -/

namespace Sys2Proof.Machine

/-- Raising an error either keeps the first error's record or makes this one the first. -/
theorem recordError_cases (c : Cause) (info : Word) (e : ErrorRecord) :
    (firstCause e.status = 0 ∧ recordError c info e =
        { status := setFirstCause c (setSticky c e.status), errInfo := info }) ∨
    (firstCause e.status ≠ 0 ∧ recordError c info e =
        { status := setSticky c e.status, errInfo := e.errInfo }) := by
  unfold recordError
  split
  · rename_i h
    exact Or.inl ⟨h, rfl⟩
  · rename_i h
    exact Or.inr ⟨h, rfl⟩

/-- The map from indices to registers undoes the map from registers to indices. -/
@[simp] theorem regAt_regIndex (r : Reg) : regAt (regIndex r) = some r := by cases r <;> rfl

/-- A mapped index is the index of its register. -/
theorem regIndex_of_regAt {idx : RegIndex} {r : Reg} (h : regAt idx = some r) : regIndex r = idx := by
  unfold regAt at h
  simpa using List.find?_some h

/-- What a read does: it returns the register's word, or records an access error and returns 0. -/
theorem portRead_cases (idx : RegIndex) (s : State) :
    (∃ r, regAt idx = some r ∧ portRead idx s = respond (some (readReg r s)) s) ∨
    (regAt idx = none ∧
      portRead idx s = respond (some 0x0) (raiseError .access (readInfo idx) s)) := by
  unfold portRead
  split
  · rename_i r h
    exact Or.inl ⟨r, h, rfl⟩
  · rename_i h
    exact Or.inr ⟨h, rfl⟩

/-- What a write to an index can do: an access error, a command, a register write or a value error. -/
theorem writeIndex_cases (idx : RegIndex) (v : Word) (s : State) :
    ((∀ r, regAt idx = some r → regKind r = .ro) ∧
      writeIndex idx v s = .next (raiseError .access (writeInfo idx) s)) ∨
    (idx = regIndex .cmd ∧ writeIndex idx v s = executeWord v s) ∨
    (∃ r, regAt idx = some r ∧ regKind r = .rw ∧ legalValue r v = true ∧
      writeIndex idx v s = .next (writeReg r v s)) ∨
    (∃ r, regAt idx = some r ∧ regKind r = .rw ∧ legalValue r v = false ∧
      writeIndex idx v s = .next (raiseError .value (writeInfo idx) s)) := by
  unfold writeIndex
  split
  · rename_i h
    exact Or.inl ⟨by simp [h], rfl⟩
  · rename_i r h
    split
    · rename_i hk
      exact Or.inl ⟨by simpa [h] using hk, rfl⟩
    · rename_i hk
      have hr : r = .cmd := by cases r <;> simp_all [regKind]
      subst hr
      exact Or.inr (Or.inl ⟨(regIndex_of_regAt h).symm, rfl⟩)
    · rename_i hk
      split
      · rename_i hl
        exact Or.inr (Or.inr (Or.inl ⟨r, h, hk, hl, rfl⟩))
      · rename_i hl
        exact Or.inr (Or.inr (Or.inr ⟨r, h, hk, by simpa using hl, rfl⟩))

/-- A register and the index it stands at. -/
theorem writeIndex_rw {r : Reg} (hk : regKind r = .rw) (v : Word) (s : State) :
    writeIndex (regIndex r) v s =
      if legalValue r v then .next (writeReg r v s)
      else .next (raiseError .value (writeInfo (regIndex r)) s) := by
  simp [writeIndex, hk]

/-- A write to `CMD` executes the word. -/
theorem portWrite_cmd (v : Word) (s : State) :
    portWrite (regIndex .cmd) v s = executeWord v (respond none s) := by
  simp [portWrite, writeIndex, regKind]

/-- Writing a command's word to `CMD` runs the command. -/
theorem executeWord_encode (i : Instr) (s : State) : executeWord (encode i) s = exec i s := by
  cases i <;> rfl

/-- What executing a word can do: run the command it decodes to, or record a command error. -/
theorem executeWord_cases (v : Word) (s : State) :
    (∃ i, decode v = .command i ∧ executeWord v s = exec i s) ∨
    (decode v = .illegal v ∧ executeWord v s = .next (raiseError .command v s)) := by
  unfold executeWord
  split
  · rename_i i h
    exact Or.inl ⟨i, h, rfl⟩
  · rename_i w h
    have hw : w = v := by
      unfold decode at h
      repeat' (split at h)
      all_goals simp_all
    subst hw
    exact Or.inr ⟨h, rfl⟩

/-- What one step does: nothing, or the first pending input. -/
theorem step_cases (s : State) :
    (s.port.inputs = [] ∧ step s = .next s) ∨
    (∃ i rest, s.port.inputs = i :: rest ∧ step s = performInput i (withInputs rest s)) := by
  unfold step takeInput
  split
  · rename_i h
    exact Or.inl ⟨h, rfl⟩
  · rename_i i rest h
    exact Or.inr ⟨i, rest, h, rfl⟩

/-- A step that finds an input performs it. -/
theorem step_of_inputs {s : State} {i : Input} {rest : List Input} (h : s.port.inputs = i :: rest) :
    step s = performInput i (withInputs rest s) := by
  simp [step, takeInput, h]

end Sys2Proof.Machine
end

