-- ==== Sys2Proof/Laws/Envelope.lean ====
section
/-! SUPPORT. What the envelope's helpers and commands do, said once. -/

namespace Sys2Proof.Machine

section Sign

variable {free : Word} {a b x : F64}

/-- A rounded integer has a set sign only below zero, or as the zero of two negative operands. -/
theorem fsign_roundInt_false {zn : Bool} {z : Int} (hz : zn = false)
    (h : 0 ≤ fvalue (roundInt zn z)) : fsign (roundInt zn z) = false := by
  rw [fsign_roundInt]
  split
  · exact hz
  · rename_i hne
    rw [decide_eq_false_iff_not]
    intro hneg
    rw [fvalue_roundInt, if_pos hneg] at h
    have h1 := le_roundUnits (b := 1) (num := z.natAbs) (den := 1) (by decide) (by decide)
      (by have : unitsOf 1 = 1 := by decide
          omega)
    rw [← unitsOf_le_iff] at h1
    have : unitsOf 1 = 1 := by decide
    omega

/-- IEEE addition gives `-0.0` only from two operands of negative sign (40_envelope.md R124). -/
theorem fsign_fadd_false (ha : fsign a = false) (hn : isNaN (fadd free a b) = false)
    (h : 0 ≤ fvalue (fadd free a b)) : fsign (fadd free a b) = false := by
  have key : fsign (fadd free a b) = true → fvalue (fadd free a b) < 0 ∨
      fsign (fadd free a b) = false := by
    intro _
    unfold fadd at hn h ⊢
    split
    · rename_i hc; simp [hc] at hn
    · rename_i hc
      simp only [hc, Bool.false_eq_true, if_false] at hn h
      split
      · rename_i hc1
        simp only [hc1, if_true] at hn h
        split
        · rename_i hc2; simp [hc2] at hn
        · exact Or.inr ha
      · rename_i hc1
        simp only [hc1, Bool.false_eq_true, if_false] at hn h
        split
        · rename_i hc2
          simp only [hc2, if_true] at h
          by_cases hb : fsign b = true
          · left
            have hi : fmag b = infBits := by simpa [isInf] using hc2
            have h0 := unitsOf_pos (b := infBits) (by decide)
            rw [fvalue, if_pos hb, hi]
            omega
          · right; simpa using hb
        · rename_i hc2
          simp only [hc2, Bool.false_eq_true, if_false] at h
          exact Or.inr (fsign_roundInt_false (by simp [ha]) h)
  by_contra hs
  rcases key (by simpa using hs) with h1 | h1
  · omega
  · exact hs h1

end Sign

section Clamp

/-- What `clamp01` can answer (40_envelope.md R111). -/
theorem clamp01_cases (x : F64) :
    (flt one64 x = true ∧ clamp01 x = one64) ∨
    (fle x one64 = true ∧ fle posZero x = true ∧ clamp01 x = x) ∨
    (fle posZero x = false ∧ clamp01 x = posZero) := by
  unfold clamp01
  by_cases h1 : flt one64 x = true
  · exact Or.inl ⟨h1, if_pos h1⟩
  · rw [if_neg h1]
    by_cases h2 : fle posZero x = true
    · refine Or.inr (Or.inl ⟨?_, h2, if_pos h2⟩)
      have h3 := fle_iff.1 h2
      rw [fle_iff]
      refine ⟨h3.2.1, isNaN_one64, ?_⟩
      by_contra hlt
      exact h1 (flt_iff.2 ⟨isNaN_one64, h3.2.1, by omega⟩)
    · exact Or.inr (Or.inr ⟨by simpa using h2, if_neg h2⟩)

/-- A NaN clamps to `+0.0`, so the clamp forgets which NaN it was. -/
theorem clamp01_of_isNaN {x : F64} (h : isNaN x = true) : clamp01 x = posZero := by
  simp [clamp01, flt, fle, h]

end Clamp

section Increment

/-- The increment of a segment of at least one step is in (0, 1] (40_envelope.md R112, R124). -/
theorem increment_facts {free : Word} {dur : Count} (h : dur ≠ 0) :
    isFinite (increment free dur) = true ∧ fsign (increment free dur) = false ∧
      0 < fvalue (increment free dur) ∧ fvalue (increment free dur) ≤ fvalue one64 := by
  have hpos : 0 < dur.toNat := by
    rcases Nat.eq_zero_or_pos dur.toNat with h0 | h0
    · exact absurd (BitVec.eq_of_toNat_eq (by simpa using h0)) h
    · exact h0
  have hlt : dur.toNat < 2 ^ 32 := dur.isLt
  obtain ⟨b, hb, hu⟩ := exists_unitsOf_nat (n := dur.toNat) (by omega)
  have hb63 : b < 2 ^ 63 := Nat.lt_trans hb infBits_lt
  have hf : f64OfNat dur.toNat = packF false b := by
    unfold f64OfNat
    rw [← hu, roundUnits_exact_one (Nat.le_of_lt hb)]
  have hfin : isFinite (f64OfNat dur.toNat) = true := by
    rw [hf, isFinite_iff, fmag_packF hb63]; exact hb
  have hmag : unitsOf (fmag (f64OfNat dur.toNat)) = dur.toNat * unitsPerOne := by
    rw [hf, fmag_packF hb63, hu]
  have hU := unitsPerOne_pos
  have hden : 0 < dur.toNat * unitsPerOne := Nat.mul_pos hpos hU
  have h0 : isZero (f64OfNat dur.toNat) = false := by
    by_contra hz
    have : fmag (f64OfNat dur.toNat) = 0 := by simpa [isZero] using hz
    rw [this, unitsOf_zero] at hmag
    omega
  have hle : fmag (increment free dur) ≤ fmag one64 := by
    apply fmag_fdiv_le isFinite_one64 hfin h0
    rw [hmag]
    apply Nat.mul_le_mul_left
    exact Nat.le_mul_of_pos_left _ hpos
  have hs : fsign (increment free dur) = false := by
    unfold increment
    rw [fsign_fdiv isFinite_one64 hfin h0, hf, fsign_packF hb63]
    decide
  have hge : 1 ≤ fmag (increment free dur) := by
    unfold increment
    rw [fdiv_of_finite isFinite_one64 hfin h0, fmag_packF (roundUnits_lt _ _), hmag, unitsOf_one64]
    apply le_roundUnits hden (by decide)
    have h1 : unitsOf 1 = 1 := by decide
    rw [h1, Nat.one_mul]
    apply Nat.mul_le_mul_right
    have : 2 ^ 32 ≤ unitsPerOne := by decide +kernel
    omega
  have hfi : isFinite (increment free dur) = true := by
    rw [isFinite_iff]
    exact Nat.lt_of_le_of_lt hle (by decide)
  have hv : fvalue (increment free dur) = (unitsOf (fmag (increment free dur)) : Int) := by
    simp [fvalue, hs]
  refine ⟨hfi, hs, ?_, ?_⟩
  · have := unitsOf_pos (b := fmag (increment free dur)) (by omega)
    omega
  · rw [hv, fvalue_one64]
    have := unitsOf_le_iff.2 hle
    rw [unitsOf_one64] at this
    exact_mod_cast this

/-- The increment does not depend on the free word. -/
theorem increment_free (free free' : Word) (dur : Count) : increment free dur = increment free' dur := by
  unfold increment fdiv
  have h1 : isNaN one64 = false := by decide
  have h2 : isInf one64 = false := by decide
  have h3 : isZero one64 = false := by decide
  have h4 : isNaN (f64OfNat dur.toNat) = false := by
    rw [isNaN_eq_false, f64OfNat, fmag_packF (roundUnits_lt _ _)]
    exact roundUnits_le_infBits _ _
  simp [h1, h2, h3, h4]

end Increment

section Commands

/-- What `env.step` does: it holds, or it ramps and draws free words. -/
theorem execEnvStep_cases (s : State) :
    (envHolds s.envCfg s.env = true ∧
      execEnvStep s = .next { s with env := { s.env with out := s.env.amp } }) ∨
    (envHolds s.envCfg s.env = false ∧
      execEnvStep s = .next (drawn { s with env := envRamp (freeWords s) s.envCfg s.env })) := by
  unfold execEnvStep
  cases h : envHolds s.envCfg s.env
  · exact Or.inr ⟨rfl, by simp⟩
  · exact Or.inl ⟨rfl, by simp⟩

/-- A ramping step inside a segment. -/
theorem envRamp_inside {free : Nat → Word} {c : EnvConfig} {r : EnvRuntime} (h : r.remain ≠ 1) :
    envRamp free c r =
      { r with
        ramp := fadd (free 0) r.ramp r.inc
        remain := r.remain - 1
        amp := envSample free (fadd (free 0) r.ramp r.inc) r
        out := envSample free (fadd (free 0) r.ramp r.inc) r } := by
  unfold envRamp
  rw [if_neg]
  intro h0
  exact h (by rw [BitVec.sub_eq_iff_eq_add] at h0; simpa using h0)

/-- A ramping step that ends a segment. -/
theorem envRamp_end {free : Nat → Word} {c : EnvConfig} {r : EnvRuntime} (h : r.remain = 1) :
    envRamp free c r =
      enterNext (freeFrom free 3) c (envSample free (fadd (free 0) r.ramp r.inc) r)
        { r with
          ramp := posZero
          remain := 0
          base := envSample free (fadd (free 0) r.ramp r.inc) r
          amp := envSample free (fadd (free 0) r.ramp r.inc) r
          out := envSample free (fadd (free 0) r.ramp r.inc) r } := by
  unfold envRamp
  simp [h]

end Commands

end Sys2Proof.Machine
end

