-- ==== Sys2Proof/Laws/Oscillator.lean ====
section
/-! SUPPORT. What the oscillator's shared operations do, once each. -/

namespace Sys2Proof.Machine

/-- The fold of a finite number draws no free word (41_oscillator.md R162). -/
theorem fold_of_finite {free : Word} {x : F64} (hx : isFinite x = true) : fold free x =
    if fle posZero x = true ∧ flt x one64 = true then x else fracPart x := by
  unfold fold; simp [hx]

/-- The grid of binary64 at and above 1.0 is closed under the remainder by 1.0: the fold of such a number
is exact (41_oscillator.md R162). -/
theorem mod_unitsPerOne_representable (b : Nat) (hb : unitsPerOne ≤ unitsOf b) :
    ∃ c, unitsOf c = unitsOf b % unitsPerOne := by
  have h1 : fmag one64 ≤ b := by rw [← unitsOf_le_iff, unitsOf_one64]; exact hb
  have h1' : fmag one64 = 1023 * 2 ^ 52 := by decide
  obtain ⟨e, m, hbe, hm, hm'⟩ : ∃ e m, b = e * 2 ^ 52 + m ∧ 2 ^ 52 ≤ m ∧ m < 2 ^ 53 :=
    ⟨b / 2 ^ 52 - 1, b % 2 ^ 52 + 2 ^ 52, by omega, by omega, by omega⟩
  have he : 1022 ≤ e := by omega
  have hu : unitsOf b = m * 2 ^ e := by rw [hbe]; exact unitsOf_scaled (by omega) (Or.inr hm)
  rw [hu, unitsPerOne_eq]
  rcases Nat.lt_or_ge 1074 e with h | h
  · refine ⟨0, ?_⟩
    have : m * 2 ^ e = 2 ^ 1074 * (m * 2 ^ (e - 1074)) := by
      rw [Nat.mul_left_comm, ← Nat.pow_add, show 1074 + (e - 1074) = e by omega]
    rw [this, Nat.mul_mod_right]; rfl
  · have hmod : m * 2 ^ e % 2 ^ 1074 = (m % 2 ^ (1074 - e)) * 2 ^ e := by
      have : 2 ^ 1074 = 2 ^ (1074 - e) * 2 ^ e := by rw [← Nat.pow_add]; congr 1; omega
      rw [this, Nat.mul_mod_mul_right]
    rw [hmod]
    generalize hk : m % 2 ^ (1074 - e) = k
    have hk53 : k < 2 ^ 53 := by
      rw [← hk]; exact Nat.lt_of_le_of_lt (Nat.mod_le _ _) hm'
    rcases Nat.eq_zero_or_pos k with h0 | hpos
    · exact ⟨0, by simp [h0]⟩
    · obtain ⟨l, hl⟩ : ∃ l, l = Nat.log2 k := ⟨_, rfl⟩
      have hlo : 2 ^ l ≤ k := by rw [hl]; exact Nat.log2_self_le (by omega)
      have hhi : k < 2 ^ (l + 1) := by rw [hl]; exact Nat.lt_log2_self
      have hl52 : l ≤ 52 := by
        by_contra h
        have : 2 ^ 53 ≤ 2 ^ l := Nat.pow_le_pow_right (by decide) (by omega)
        omega
      have h1 : 2 ^ 52 ≤ k * 2 ^ (52 - l) := by
        calc 2 ^ 52 = 2 ^ l * 2 ^ (52 - l) := by rw [← Nat.pow_add]; congr 1; omega
          _ ≤ k * 2 ^ (52 - l) := Nat.mul_le_mul_right _ hlo
      have h2 : k * 2 ^ (52 - l) < 2 ^ 53 := by
        calc k * 2 ^ (52 - l) < 2 ^ (l + 1) * 2 ^ (52 - l) :=
              Nat.mul_lt_mul_of_pos_right hhi (Nat.two_pow_pos _)
          _ = 2 ^ 53 := by rw [← Nat.pow_add]; congr 1; omega
      refine ⟨(e - (52 - l)) * 2 ^ 52 + k * 2 ^ (52 - l), ?_⟩
      rw [unitsOf_scaled (by omega) (Or.inr h1), Nat.mul_assoc, ← Nat.pow_add]
      congr 2; omega

/-- What a legal sample rate is (10_state.md R47): no smaller than 1.0, so no zero and not negative. -/
theorem legalRate_facts {r : F64} (h : legalRate r = true) : isFinite r = true ∧ isZero r = false ∧
    fsign r = false ∧ unitsPerOne ≤ unitsOf (fmag r) := by
  simp only [legalRate, Bool.and_eq_true] at h
  have h2 := (fle_iff.1 h.2).2.2
  rw [fvalue_one64] at h2
  have hp : (0 : Int) < (unitsPerOne : Int) := by exact_mod_cast unitsPerOne_pos
  have hs := fsign_eq_false_of_pos (x := r) (by omega)
  have hv : fvalue r = (unitsOf (fmag r) : Int) := by simp [fvalue, hs]
  refine ⟨h.1, ?_, hs, by omega⟩
  by_contra hz
  have := isZero_iff_fvalue.1 (by simpa using hz)
  omega

/-- What `osc.gen` does to the oscillator's registers, mode by mode (41_oscillator.md R169). -/
theorem oscSample_cases (free : Nat → Word) (c : OscConfig) (r : OscRuntime) :
    (oscSample free c r).phase = fold (free 3) (fadd (free 4) r.phase (phaseIncrement (free 0) c)) ∧
    (c.mode ≠ .triangle → (oscSample free c r).last = r.last) ∧
    (c.mode = .triangle → (oscSample free c r).out = fmul (free 5) two64 (oscSample free c r).last) := by
  unfold oscSample
  cases h : c.mode <;> simp

end Sys2Proof.Machine
end

