-- ==== Sys2Proof/Laws/PerInstr.lean ====
section
/-! SUPPORT. One family of statements, made per command. -/

namespace Sys2Proof.Laws.RoundTrip

/-- The command's own word is legal by its fields, and both decoders read the command back from it
(30_encoding.md R91 to R94). -/
def Statement (i : Instr) : Prop :=
  i.wellFormed = true ∧ wellFormedWord (encode i) = true ∧ decode (encode i) = .command i ∧
    decodeTableWord 64 (encode i).toNat = some i

theorem nop : Statement .nop := by unfold Statement; decide

theorem envGateOn : Statement .envGateOn := by unfold Statement; decide

theorem envGateOff : Statement .envGateOff := by unfold Statement; decide

theorem envStep : Statement .envStep := by unfold Statement; decide

theorem envReset : Statement .envReset := by unfold Statement; decide

theorem oscGen : Statement .oscGen := by unfold Statement; decide

theorem oscReset : Statement .oscReset := by unfold Statement; decide

theorem clrerr : Statement .clrerr := by unfold Statement; decide

end Sys2Proof.Laws.RoundTrip
end

