-- ==== Sys2Proof/Tests/Slice0.lean ====
section
/-! SUPPORT. Tests on fixed values, from the vectors of 95_test_vectors.md, and for each obligation with
hypotheses a concrete input that meets them. -/

namespace Sys2Proof.Tests

open Sys2Proof Sys2Proof.Machine

set_option Elab.async false

/-- The outcome is a next state and the state passes the check. -/
def nextIs (o : Host.Outcome State Fault Refusal) (p : State → Bool) : Bool :=
  match o with
  | .next t => p t
  | .fault _ => false
  | .refused _ => false

/-- Reset with the given envelope registers and durations 4, 2, 3 and 2, decay level 0.5 (V-ENV-3). -/
def envState (gated : Bool) (stage : Stage) (remain : Count) (ramp inc delta base amp : F64) : State :=
  { State.reset with
    envCfg :=
      { State.reset.envCfg with
        gated := gated, atkDur := 4, decDur := 2, decLevel := 0x3FE0000000000000, susDur := 3, relDur := 2 }
    env :=
      { stage := stage, remain := remain, ramp := ramp, inc := inc, delta := delta, shape := one64
        base := base, amp := amp, out := amp } }

/-- Reset with the given mode, frequency and phase offset, sample rate 4.0 (V-OSC-3). -/
def oscState (mode : Waveform) (freq phofs phase last : F64) : State :=
  { State.reset with
    oscCfg := { mode := mode, freq := freq, phofs := phofs, srate := 0x4010000000000000 }
    osc := { phase := phase, last := last, out := posZero } }

/-- The example of 40_envelope.md R116: half way up a linear attack. -/
def attackHalf : State := envState false .attack 2 half64 0x3FD0000000000000 one64 posZero half64

/-- The last step of that attack. -/
def attackLast : State :=
  envState false .attack 1 0x3FE8000000000000 0x3FD0000000000000 one64 posZero 0x3FE8000000000000

/-- The last step of the decay of V-ENV-3. -/
def decayLast : State :=
  envState false .decay 1 half64 half64 0xBFE0000000000000 one64 0x3FE8000000000000

/-- The last step of the ungated sustain of V-ENV-3. -/
def sustainLast : State := envState false .sustain 1 posZero posZero posZero half64 half64

/-- A gated sustain. -/
def sustainGated : State := envState true .sustain 3 posZero posZero posZero half64 half64

/-- The last step of the release of V-ENV-3. -/
def releaseLast : State :=
  envState false .release 1 half64 half64 0xBFE0000000000000 half64 0x3FD0000000000000

section WellFormed

/-- V-ENC-2: a `Z` bit of format C0. -/
theorem test_zeroC0_refuses : zeroC0 0x0000000100000002 = false ∧ zeroC0 0x102 = false ∧
    wellFormedWord 0x0000000100000002 = false ∧ wellFormedWord 0x8000000000000000 = false := by decide

/-- V-ENC-2: a `Z` bit of format CG. -/
theorem test_zeroCG_refuses : zeroCG 0x201 = false ∧ wellFormedWord 0x201 = false ∧
    wellFormedWord 0x8000000000000101 = false := by decide

/-- V-ENC-2: an unassigned opcode. -/
theorem test_opcode_refuses : c0Opcodes.contains (opField 0x05) = false ∧
    wellFormedWord 0x05 = false ∧ wellFormedWord 0x121 = false ∧ wellFormedWord 0xFF = false := by decide

/-- Every command is well formed: a term of `Instr` has no field that could be ill formed. -/
theorem test_instr_wellFormed : Instr.envGateOn.wellFormed = true := by decide

end WellFormed

section Decode

/-- 30_encoding.md R91, R93: `OP` = 0x00, `Z` = 0. -/
theorem test_decode_nop : decode ((0 : BitVec 56) ++ 0b00000000#8) = .command .nop := by decide

/-- R92, R93: `Z` = 0, `ON` = 1, `OP` = 0x01. -/
theorem test_decode_gate_on :
    decode ((0 : BitVec 55) ++ (1#1 ++ 0b00000001#8)) = .command .envGateOn := by decide

/-- R92, R93: `Z` = 0, `ON` = 0, `OP` = 0x01. -/
theorem test_decode_gate_off :
    decode ((0 : BitVec 55) ++ (0#1 ++ 0b00000001#8)) = .command .envGateOff := by decide

theorem test_decode_step : decode ((0 : BitVec 56) ++ 0b00000010#8) = .command .envStep := by decide

theorem test_decode_env_reset : decode ((0 : BitVec 56) ++ 0b00000011#8) = .command .envReset := by
  decide

theorem test_decode_gen : decode ((0 : BitVec 56) ++ 0b00010000#8) = .command .oscGen := by decide

theorem test_decode_osc_reset : decode ((0 : BitVec 56) ++ 0b00010001#8) = .command .oscReset := by
  decide

theorem test_decode_clrerr : decode ((0 : BitVec 56) ++ 0b00100000#8) = .command .clrerr := by decide

/-- V-ENC-2. -/
theorem test_decode_illegal : decode 0xFFFFFFFFFFFFFFFF = .illegal 0xFFFFFFFFFFFFFFFF ∧
    decode 0x4 = .illegal 0x4 := by decide

theorem test_decodeTableWord : decodeTableWord 64 0x101 = some .envGateOn ∧
    decodeTableWord 64 0x201 = none ∧ decodeTableWord 16 0x101 = some .envGateOn := by decide

/-- V-ENV-1 through the step: a command placed at reset is the first to run. -/
theorem test_withFetchWord :
    nextIs (step (State.reset.withFetchWord 64 0x101)) (fun t => t.env.stage == .attack) = true := by
  decide +kernel

end Decode

section Commands

/-- V-CTL-1. -/
theorem test_nop :
    nextIs (exec .nop { State.reset with err := { status := 0x17, errInfo := 0x109 } })
      (fun t => t.err.status == 0x17) = true := by decide

/-- V-CTL-2. -/
theorem test_clrerr :
    nextIs (exec .clrerr { State.reset with err := { status := 0x17, errInfo := 0x109 } })
      (fun t => t.err.status == 0 && t.err.errInfo == 0) = true := by decide

/-- V-ENV-17: a retrigger at 0.4375. -/
theorem test_gate_on_retriggers :
    nextIs (exec .envGateOn (envState true .release 1 half64 half64 0xBFEC000000000000
        0x3FEC000000000000 0x3FDC000000000000))
      (fun t => t.env.stage == .attack && t.env.base == 0x3FDC000000000000 &&
        t.env.delta == 0x3FE2000000000000 && t.env.inc == 0x3FD0000000000000 && t.env.remain == 4) =
      true := by decide +kernel

/-- V-ENV-15: the increment of the largest duration. -/
theorem test_gate_on_longest :
    increment 0 0xFFFFFFFF = 0x3DF0000000100000 := by decide +kernel

/-- The example of 40_envelope.md R114. -/
theorem test_gate_off :
    nextIs (exec .envGateOff (envState false .decay 1 0x3FD0000000000000 0x3FD0000000000000
        0xBFE0000000000000 one64 0x3FEC000000000000))
      (fun t => t.env.stage == .release && t.env.base == 0x3FEC000000000000 &&
        t.env.delta == 0xBFEC000000000000 && t.env.inc == half64 && t.env.remain == 2) = true := by
  decide +kernel

/-- V-ENV-7: with `GATE_OFF_NEEDS_GATED` true an ungated envelope ignores it. -/
theorem test_gate_off_needs_gated : (gateOff true attackHalf).env = attackHalf.env := by decide +kernel

/-- The example of 40_envelope.md R116. -/
theorem test_step_inside :
    nextIs (exec .envStep attackHalf)
      (fun t => t.env.ramp == 0x3FE8000000000000 && t.env.remain == 1 &&
        t.env.out == 0x3FE8000000000000 && t.env.stage == .attack) = true := by decide +kernel

/-- V-ENV-3, after step 4. -/
theorem test_step_ends_attack :
    nextIs (exec .envStep attackLast)
      (fun t => t.env.stage == .decay && t.env.base == one64 && t.env.delta == 0xBFE0000000000000 &&
        t.env.inc == half64 && t.env.remain == 2) = true := by decide +kernel

/-- V-ENV-16. -/
theorem test_env_reset :
    nextIs (exec .envReset attackHalf)
      (fun t => t.env == State.reset.env && t.envCfg == attackHalf.envCfg) = true := by decide

/-- V-OSC-3 and V-OSC-4: Saw and Square, the first sample. -/
theorem test_gen_saw_square :
    nextIs (exec .oscGen (oscState .saw one64 0x3FC0000000000000 posZero half64))
      (fun t => t.osc.out == 0xBFE0000000000000 && t.osc.phase == 0x3FD0000000000000 &&
        t.osc.last == half64) = true ∧
    nextIs (exec .oscGen (oscState .square one64 0x3FC0000000000000 posZero posZero))
      (fun t => t.osc.out == 0x3FE8000000000000 && t.osc.phase == 0x3FD0000000000000) = true := by
  decide +kernel

/-- V-OSC-5: Triangle, the third sample. -/
theorem test_gen_triangle :
    nextIs (exec .oscGen (oscState .triangle one64 0x3FC0000000000000 half64 0x3FD5000000000000))
      (fun t => t.osc.last == 0x3FAE000000000000 && t.osc.out == 0x3FBE000000000000) = true := by
  decide +kernel

/-- V-OSC-10. -/
theorem test_osc_reset :
    nextIs (exec .oscReset (oscState .triangle one64 posZero half64 half64))
      (fun t => t.osc == State.reset.osc && t.oscCfg.mode == .triangle) = true := by decide

end Commands

section Helpers

/-- V-OSC-1. -/
theorem test_fold : fold 0 0x4004000000000000 = half64 ∧ fold 0 0xBFD0000000000000 = 0x3FE8000000000000 ∧
    fold 0 negOne64 = posZero ∧ fold 0 0x8000000000000000 = 0x8000000000000000 ∧
    fold 0 0x81A56E1FC2F8F359 = one64 ∧ fold 0 0xBC90000000000000 = one64 ∧
    fold 0 0xBCA0000000000000 = 0x3FEFFFFFFFFFFFFF ∧ fold 0 0xBFF0000000000001 = 0x3FEFFFFFFFFFFFFE ∧
    fold 0 0x4415AF1D78B58C40 = posZero := by decide +kernel

/-- V-OSC-2. -/
theorem test_polyBlep : polyBlep 0 0x3FC0000000000000 0x3FD0000000000000 = 0xBFD0000000000000 ∧
    polyBlep 0 0x3FEC000000000000 0x3FD0000000000000 = 0x3FD0000000000000 ∧
    polyBlep 0 posZero 0x3FD0000000000000 = negOne64 ∧ polyBlep 0 one64 0x3FD0000000000000 = one64 ∧
    polyBlep 0 0x3FD0000000000000 0x3FD0000000000000 = posZero := by decide +kernel

/-- V-OSC-20: Saw and Square at `t = 1.0` and a quarter; hand calculation from R164 to R167 for the
increments at which the remark of R169 does not hold (log 18). -/
theorem test_waves_at_one : sawWave 0 one64 0x3FD0000000000000 = posZero ∧
    squareWave 0 one64 0x3FD0000000000000 = posZero ∧ sawWave 0 one64 posZero = one64 ∧
    squareWave 0 one64 posZero = negOne64 ∧ squareWave 0 one64 one64 = 0x3FD0000000000000 := by
  decide +kernel

/-- 20_memory.md R73: a write of 4 to `ENV_ATK_DUR` through the bridge, and a read of it. -/
theorem test_bridge : bridgeWrite 0x48 4 0 0 0 0 0 0 0 = some (.write 0x09 0x4) ∧
    bridgeRead 0x48 = some (.read 0x09) := by decide

/-- V-OSC-S8: `dt`. -/
theorem test_phaseIncrement :
    fdiv 0 0x40B3880000000000 0x40E5888000000000 = 0x3FBD0662AF4F8742 := by decide +kernel

/-- V-ENC-3: literals that round. -/
theorem test_realLiteral : realLiteral false 3 10 = 0x3FD3333333333333 ∧
    realLiteral true 1 (10 ^ 300) = 0x81A56E1FC2F8F359 ∧
    realLiteral false (10 ^ 300) 1 = 0x7E37E43C8800759C := by decide +kernel

/-- The model's choice of log 11: a negative literal that rounds to zero, and an exact zero. -/
theorem test_realLiteral_zeros : realLiteral true 1 (10 ^ 400) = 0x8000000000000000 ∧
    realLiteral false 1 (10 ^ 400) = posZero ∧ realLiteral true 0 1 = posZero := by decide +kernel

/-- V-PORT-4. -/
theorem test_recordError :
    recordErrors [(.value, 0x109), (.command, 0x5), (.access, 0x3)] { status := 0, errInfo := 0 } =
      { status := 0x17, errInfo := 0x109 } := by decide

/-- V-PORT-3. -/
theorem test_access_errors :
    nextIs (performInput (.write 0x18 0x2) State.reset)
      (fun t => t.err == { status := 0x34, errInfo := 0x118 } && t.env == State.reset.env) = true ∧
    nextIs (performInput (.read 0x03) State.reset)
      (fun t => t.err == { status := 0x34, errInfo := 0x003 } && t.port.response == some 0) = true := by
  decide

/-- V-PORT-2. -/
theorem test_value_errors :
    nextIs (performInput (.write 0x09 0x100000001) State.reset)
      (fun t => t.err == { status := 0x11, errInfo := 0x109 } && t.envCfg.atkDur == 1) = true ∧
    nextIs (performInput (.write 0x0D 0x8000000000000000) State.reset)
      (fun t => t.err == State.reset.err && readReg .envDecLevel t == 0x8000000000000000) = true := by
  decide +kernel

/-- 30_encoding.md R99: `env.gate 1` and `osc.sample`. -/
theorem test_assemble : assemble (.envGate true) = [.write 0x00 0x101] ∧
    assemble (.oscSample (.real false 1 2) (.int 0)) =
      [.write 0x29 0x3FE0000000000000, .write 0x2A 0x0, .write 0x00 0x10] := by decide +kernel

end Helpers

section Witnesses

theorem test_core_reset : CoreInvariant State.reset :=
  ⟨⟨by decide +kernel, by decide +kernel, by decide +kernel, by decide +kernel⟩, by decide +kernel,
    by decide +kernel, by decide⟩

/-- The invariant of a state that is reset but for the envelope's registers. -/
theorem core_of_env (s : State) (ho : s.oscCfg = State.reset.oscCfg ∧ s.osc = State.reset.osc)
    (he : s.err = State.reset.err)
    (h : EnvInvariant s ∧ EnvSegmentShaped s.env) : CoreInvariant s := by
  refine ⟨h.1, h.2, ?_, he ▸ test_core_reset.2.2.2⟩
  have hr := test_core_reset.2.2.1
  unfold OscInvariant at hr ⊢
  rw [ho.1, ho.2]
  exact hr

theorem test_core_attackHalf : CoreInvariant attackHalf :=
  core_of_env _ ⟨rfl, rfl⟩ rfl
    ⟨⟨by decide +kernel, by decide +kernel, by decide +kernel, by decide +kernel⟩, by decide +kernel⟩

theorem test_core_attackLast : CoreInvariant attackLast :=
  core_of_env _ ⟨rfl, rfl⟩ rfl
    ⟨⟨by decide +kernel, by decide +kernel, by decide +kernel, by decide +kernel⟩, by decide +kernel⟩

theorem test_core_decayLast : CoreInvariant decayLast :=
  core_of_env _ ⟨rfl, rfl⟩ rfl
    ⟨⟨by decide +kernel, by decide +kernel, by decide +kernel, by decide +kernel⟩, by decide +kernel⟩

theorem test_core_sustainLast : CoreInvariant sustainLast :=
  core_of_env _ ⟨rfl, rfl⟩ rfl
    ⟨⟨by decide +kernel, by decide +kernel, by decide +kernel, by decide +kernel⟩, by decide +kernel⟩

theorem test_core_releaseLast : CoreInvariant releaseLast :=
  core_of_env _ ⟨rfl, rfl⟩ rfl
    ⟨⟨by decide +kernel, by decide +kernel, by decide +kernel, by decide +kernel⟩, by decide +kernel⟩

/-- PhaseStaysInRange: an offset that folds near 1.0. -/
theorem test_osc_square : OscInvariant (oscState .square one64 0xBC90000000000000 half64 posZero) := by
  decide +kernel

/-- DecodingIsExactlyTheFieldForm. -/
theorem test_witness_decoding : decode 0x101 = .command .envGateOn ∧ wellFormedWord 0x101 = true ∧
    wellFormedWord 0x201 = false := by decide

/-- StepRunsTheDecodedCommand. -/
theorem test_witness_step :
    (withInputs [.write 0x00 0x2] State.reset).port.inputs = .write (regIndex .cmd) 0x2 :: [] ∧
    decode 0x2 = .command .envStep := by decide

/-- IllegalWordOnlyRaisesCommandError, next to a legal word. -/
theorem test_witness_illegal : (0x100 : Word) ∉ [0x0000000000000000, 0x0000000000000101,
    0x0000000000000001, 0x0000000000000002, 0x0000000000000003, 0x0000000000000010,
    0x0000000000000011, (0x0000000000000020 : Word)] := by decide

/-- PortReadReturnsTheRegister: each clause, at the ends of the map. -/
theorem test_witness_read : (regAt 0x32 = some .oscOut ∧ Reg.oscOut ≠ .cmd) ∧ regAt 0x00 = some .cmd ∧
    regAt 0x3F = none := by decide

/-- PortWriteFollowsTheAccessKind: each clause. -/
theorem test_witness_write : kindAt 0x3F = none ∧ kindAt 0x32 = some .ro ∧ kindAt 0x00 = some .wo ∧
    decode 0x20 = .command .clrerr ∧ decode 0x21 = .illegal 0x21 ∧
    (regAt 0x09 = some .envAtkDur ∧ regKind .envAtkDur = .rw) ∧
    legalValue .envAtkDur 0xFFFFFFFF = true ∧ legalValue .envAtkDur 0x100000000 = false := by decide

/-- LegalWriteChangesOnlyItsRegister and IllegalValuesAreRejected, at boundaries of the legal values. -/
theorem test_witness_legal : regKind .oscSrate = .rw ∧ legalValue .oscSrate one64 = true ∧
    legalValue .oscSrate 0x3FEFFFFFFFFFFFFF = false ∧ legalValue .envRelShape 1 = true ∧
    legalValue .envRelShape 0x7FF0000000000000 = false ∧ legalValue .envDecLevel 0x3FF0000000000001 = false ∧
    legalValue .oscMode 3 = true ∧ legalValue .oscMode 4 = false ∧ Reg.oscFreq ≠ .oscSrate := by
  decide +kernel

/-- CoreIsPassive. -/
theorem test_witness_passive : State.reset.port.inputs = [] := by decide

/-- InstancesNeverInteract: two instances, the first one's step. -/
theorem test_witness_platform :
    ({ cores := [State.reset, attackHalf] } : Platform).cores[0]? = some State.reset ∧ 1 ≠ 0 := by decide

/-- ErrorsAreRecordedAndTheFirstKept: an empty record and a full one. -/
theorem test_witness_record : firstCause 0x0 = 0 ∧ firstCause 0x34 ≠ 0 := by decide

/-- OneInputRaisesAtMostOneError, EnvelopeOutputStaysInUnit and ReachableStatesMeetTheInvariants. -/
theorem test_witness_inputs : (∃ t, performInput (.read 0x3F) State.reset = .next t) ∧
    (∃ t, performAll [.write 0x09 0x0, .write 0x00 0x101, .hardReset] State.reset = .next t) :=
  ⟨⟨_, rfl⟩, ⟨_, rfl⟩⟩

/-- CommandsRaiseNothing. -/
theorem test_witness_commands : Instr.nop ≠ .clrerr := by decide

/-- ClampAnswersInUnit: each clause. -/
theorem test_witness_clamp : InUnit one64 ∧ flt one64 0x3FF0000000000001 = true ∧
    flt 0x8000000000000001 posZero = true ∧ isNaN 0x7FF0000000000001 = true := by decide +kernel

/-- GateOnStartsAttack. -/
theorem test_witness_gate_on : isNaN attackHalf.env.amp = false := by decide

/-- GateOffStartsRelease: enabled, and not. -/
theorem test_witness_gate_off : attackHalf.env.stage = .attack ∧ sustainGated.envCfg.gated = true ∧
    sustainGated.env.stage = .sustain ∧ releaseLast.env.stage = .release ∧
    attackHalf.envCfg.gated = false := by decide

/-- StepHoldsInIdleAndGatedSustain, GatedSustainHoldsForEver and IdleReturnsZeroForEver. -/
theorem test_witness_hold : State.reset.env.stage = .idle ∧ sustainGated.env.stage = .sustain ∧
    sustainGated.envCfg.gated = true := by decide

/-- StepAdvancesTheSegment, RampingStepStaysInTheDomain, UngatedSustainReturnsItsBase and the segment's
end of OnlyTheseInputsChangeTheStage: inside a segment and at the end of each; the invariants are above. -/
theorem test_witness_ramping : (attackHalf.env.remain ≠ 1 ∧ attackHalf.env.stage ≠ .idle ∧
      envHolds attackHalf.envCfg attackHalf.env = false) ∧
    (attackLast.env.remain = 1 ∧ attackLast.env.stage = .attack ∧
      envHolds attackLast.envCfg attackLast.env = false) ∧
    (decayLast.env.remain = 1 ∧ decayLast.env.stage = .decay) ∧
    (sustainLast.env.remain = 1 ∧ sustainLast.env.stage = .sustain ∧ sustainLast.envCfg.gated = false ∧
      envHolds sustainLast.envCfg sustainLast.env = false) ∧
    (releaseLast.env.remain = 1 ∧ releaseLast.env.stage = .release) := by decide

/-- RampingStepStaysInTheDomain: a step whose delta is no zero. -/
theorem test_witness_delta : isZero attackHalf.env.delta = false := by decide

/-- OnlyTheseInputsChangeTheStage and SegmentsAreContinuous. -/
theorem test_witness_stage :
    (∃ t, exec .envStep attackLast = .next t ∧ t.env.stage ≠ attackLast.env.stage) ∧
    (∃ t, exec .envStep releaseLast = .next t ∧ t.env.stage ≠ releaseLast.env.stage) ∧
    (∃ t, performInput (.write 0x00 0x1) attackHalf = .next t ∧
      t.env.stage ≠ attackHalf.env.stage) :=
  ⟨⟨_, rfl, by decide +kernel⟩, ⟨_, rfl, by decide +kernel⟩, ⟨_, rfl, by decide +kernel⟩⟩

/-- ConfigurationIsReadOnlyAtItsPoints: two different configurations that agree on what `env.gate.on`
reads, and a state of each kind. -/
theorem test_witness_config : attackHalf.envCfg ≠ { attackHalf.envCfg with decDur := 9 } ∧
    ({ attackHalf.envCfg with decDur := 9 } : EnvConfig).atkDur = attackHalf.envCfg.atkDur ∧
    attackHalf.env.remain ≠ 1 ∧ decayLast.env.stage = .decay := by decide

/-- SegmentLastsItsSteps: the last step of a segment of two; UngatedCycleReturnsToIdle from reset. -/
theorem test_witness_length : 2 ≤ attackHalf.env.remain.toNat ∧ State.reset.env.stage = .idle ∧
    State.reset.envCfg.gated = false ∧
    4 ≤ State.reset.envCfg.atkDur.toNat + State.reset.envCfg.decDur.toNat +
      State.reset.envCfg.susDur.toNat + State.reset.envCfg.relDur.toNat := by decide

/-- EarlyReleaseEndsInIdle: no step and every step of the release. -/
theorem test_witness_release : attackHalf.env.stage = .attack ∧ 2 ≤ attackHalf.envCfg.relDur.toNat ∧
    2 = attackHalf.envCfg.relDur.toNat := by decide

/-- OscGenMakesOneSample: every mode; OnlyTriangleLeavesTheFiniteNumbers; SineOutputStaysInRange. -/
theorem test_witness_modes : ∀ m ∈ [Waveform.sine, .saw, .square, .triangle],
    OscInvariant (oscState m negOne64 one64 half64 half64) ∧
      (oscState m negOne64 one64 half64 half64).oscCfg.mode = m := by decide +kernel

/-- PhaseIncrementIsFiniteAndForward: the lowest rate. -/
theorem test_witness_rate : isFinite 0xFFEFFFFFFFFFFFFF = true ∧ legalRate one64 = true := by
  decide +kernel

/-- FoldBringsIntoUnit and FoldIsTheSourcesLoop, on both sides of zero and of 2^53. -/
theorem test_witness_fold : isFinite 0xBC90000000000000 = true ∧ 0 ≤ fvalue one64 ∧
    flt (fabs 0xC33FFFFFFFFFFFFF) 0x4340000000000000 = true ∧
    fle 0x4340000000000000 (fabs 0xC340000000000000) = true := by decide +kernel

/-- PolyBlepIsZeroOutsideItsWindows: outside, no increment, and in each window. -/
theorem test_witness_polyBlep : InUnit half64 ∧ isFinite 0x3FD0000000000000 = true ∧
    fle posZero 0x3FD0000000000000 = true ∧ flt half64 0x3FD0000000000000 = false ∧
    flt (fsub 0 one64 0x3FD0000000000000) half64 = false ∧ isZero 0x8000000000000000 = true ∧
    fle posZero 0x8000000000000000 = true ∧ (InUnit posZero ∧ flt posZero 0x0000000000000001 = true) ∧
    (InUnit one64 ∧ flt one64 0x3FD0000000000000 = false ∧
      flt (fsub 0 one64 0x3FD0000000000000) one64 = true) := by decide +kernel

/-- WavesAtPhaseOneFollowTheIncrement: both modes at the lowest phase sum, without an
increment and with the largest of its range. -/
theorem test_witness_phase_one :
    OscInvariant (oscState .saw posZero 0xBC90000000000000 posZero posZero) ∧
    OscInvariant (oscState .square posZero 0xBC90000000000000 posZero posZero) ∧
    OscInvariant (oscState .saw 0x4010000000000000 0xBC90000000000000 posZero posZero) ∧
    OscInvariant (oscState .square two64 0xBC90000000000000 posZero posZero) := by decide +kernel

/-- WavesAtPhaseOneFollowTheIncrement: the phase sum at both ends of its range. -/
theorem test_witness_phase_sum : fadd 0 posZero 0xBC90000000000000 = 0xBC90000000000000 ∧
    fle (fneg 0x3C90000000000000) 0xBC90000000000000 = true ∧
    fadd 0 posZero 0x8000000000000001 = 0x8000000000000001 ∧
    flt 0x8000000000000001 posZero = true := by decide +kernel

/-- WavesAtPhaseOneFollowTheIncrement: the frequencies, at the rate 4.0, of the increments at the ends of
each range. -/
theorem test_witness_increments : fdiv 0 0x3CB0000000000000 0x4010000000000000 = 0x3C90000000000000 ∧
    flt 0x3C90000000000000 (fdiv 0 0x3CB0000000000001 0x4010000000000000) = true ∧
    fdiv 0 two64 0x4010000000000000 = half64 ∧
    fdiv 0 0x4010000000000000 0x4010000000000000 = one64 := by decide +kernel

/-- NaNIntegratorStaysNaN. -/
theorem test_witness_nan : (oscState .triangle one64 posZero posZero 0x7FF8000000000000).oscCfg.mode =
    .triangle ∧ isNaN (oscState .triangle one64 posZero posZero 0x7FF8000000000000).osc.last = true := by
  decide

/-- ChannelsShareNoState: two states that differ in the other channel alone. -/
theorem test_witness_channels : (oscState .saw one64 posZero half64 posZero).env = State.reset.env ∧
    (oscState .saw one64 posZero half64 posZero).envCfg = State.reset.envCfg ∧
    (oscState .saw one64 posZero half64 posZero).osc ≠ State.reset.osc ∧
    attackHalf.osc = State.reset.osc ∧ attackHalf.oscCfg = State.reset.oscCfg ∧
    attackHalf.env ≠ State.reset.env := by decide

/-- RoundingIsToNearestTiesToEven: the largest and the smallest finite operands. -/
theorem test_witness_operands : isFinite 0x7FEFFFFFFFFFFFFF = true ∧
    isFinite 0x8000000000000001 = true ∧ isZero 0x8000000000000001 = false := by decide

/-- RoundingIsToNearestTiesToEven: a tie between the two smallest encodings. -/
theorem test_witness_tie : 0 < 2 ∧ 1 ≤ infBits ∧ roundUnits 1 2 = 0 ∧
    |(unitsOf (roundUnits 1 2) * 2 : Int) - 1| = |(unitsOf 1 * 2 : Int) - 1| := by decide

/-- IntegersConvertExactly: the last integer below the bound. -/
theorem test_witness_f64 : 2 ^ 53 - 1 < 2 ^ 53 ∧ f64OfNat (2 ^ 53 - 1) = 0x433FFFFFFFFFFFFF := by
  decide +kernel

/-- PowFnHasExactlyItsLaws: a function with the laws. -/
theorem test_witness_pow :
    PowLaws (fun x y => if y = one64 then x else if x = one64 then one64 else posZero) where
  p1 _ := by simp
  p2 x y h := by
    simp only [powDomain, Bool.and_eq_true] at h
    obtain ⟨⟨⟨h1, h2⟩, -⟩, -⟩ := h
    split
    · exact ⟨by simp only [isNaN, isFinite, decide_eq_true_eq, decide_eq_false_iff_not] at *; omega,
        h2, .inl h1⟩
    · split <;> exact ⟨by decide, by decide +kernel, .inl (by decide)⟩
  p3 y _ _ := by
    constructor
    · simp
    · have : posZero ≠ one64 := by decide
      simp [this]

/-- SinFnHasExactlyItsLaws: a function with the laws. -/
theorem test_witness_sin : SinLaws (fun x => if isZero x then x else posZero) where
  s1 := by decide
  s2 x _ := by
    split
    · next h =>
      have hm : fmag x = 0 := by simpa [isZero] using h
      have hv : fvalue x = 0 := by unfold fvalue; rw [hm]; simp [unitsOf]
      have h1 : fvalue negOne64 ≤ 0 := by decide +kernel
      have h2 : 0 ≤ fvalue one64 := by decide +kernel
      have hn : isNaN x = false := by unfold isNaN; rw [hm]; decide
      refine ⟨by unfold isFinite; rw [hm]; decide, ?_, ?_⟩ <;>
        simp only [fle, hn, hv, Bool.not_false, Bool.true_and, Bool.and_eq_true, decide_eq_true_eq]
      · exact ⟨by decide, h1⟩
      · exact ⟨by decide, h2⟩
    · exact ⟨by decide, by decide +kernel, by decide +kernel⟩

/-- EveryStepKeepsTheInvariant: a step that runs a command. -/
theorem test_witness_invariant : CoreInvariant (withInputs [.write 0x00 0x101] State.reset) ∧
    ∃ t, step (withInputs [.write 0x00 0x101] State.reset) = .next t ∧ t.env.stage = .attack :=
  ⟨test_core_reset, ⟨_, rfl, by decide +kernel⟩⟩

end Witnesses

end Sys2Proof.Tests
end

section
/-! The scope rules of 00_scope.md: rounding to nearest, whole numbers, the laws of `powFn` and `sinFn`, and
the independence of the two channels; with the range of a Sine sample, which rests on law S2. -/

namespace Sys2Proof.Machine

section Rounding

/-- `roundUnits` answers the nearest encoding, the even one on a tie (00_scope.md R11). The two neighbours
of the exact magnitude bound every other encoding's distance; past 2^1024 the nearest one is infinity. -/
theorem roundsTo_roundUnits (num : Nat) {den : Nat} (hd : 0 < den) :
    RoundsTo num den (roundUnits num den) := by
  obtain ⟨c, hlo, hhi, hr⟩ := roundUnits_spec num hd
  refine ⟨roundUnits_le_infBits num den, fun b hb => ?_⟩
  have scaled_le : ∀ {i j : Nat}, i ≤ j → unitsOf i * den ≤ unitsOf j * den := fun h =>
    Nat.mul_le_mul_right den (unitsOf_le_iff.2 h)
  have scaled_lt : ∀ {i j : Nat}, i < j → unitsOf i * den < unitsOf j * den := fun h =>
    Nat.mul_lt_mul_of_pos_right (unitsOf_lt_iff.2 h) hd
  rw [Nat.add_mul] at hr
  simp only [Int.abs_eq_natAbs, ← Nat.cast_mul]
  rcases Nat.lt_or_ge c infBits with hc | hc
  · rw [Nat.min_eq_left (by split <;> omega)] at hr
    have hcases : b < c ∨ b = c ∨ b = c + 1 ∨ c + 1 < b := by omega
    rcases hcases with hbc | rfl | rfl | hbc
    · have := scaled_lt hbc
      split at hr <;> rw [hr] <;> omega
    · split at hr <;> rw [hr] <;> omega
    · split at hr <;> rw [hr] <;> omega
    · have := scaled_lt hbc
      split at hr <;> rw [hr] <;> omega
  · have hinf : roundUnits num den = infBits := by
      rw [hr]; exact Nat.min_eq_right (by split <;> omega)
    have hle := scaled_le hc
    have hb' := scaled_le hb
    have heven : infBits % 2 = 0 := by decide
    rw [hinf]
    omega

variable {a b : F64}

theorem fadd_roundsTo (free : Word) (ha : isFinite a = true) (hb : isFinite b = true) :
    RoundsTo (fvalue a + fvalue b).natAbs 1 (fmag (fadd free a b)) ∧
      fsign (fadd free a b) =
        if fvalue a + fvalue b = 0 then fsign a && fsign b
        else decide (fvalue a + fvalue b < 0) := by
  rw [fadd_of_finite ha hb, fmag_roundInt, fsign_roundInt]
  exact ⟨roundsTo_roundUnits _ Nat.one_pos, rfl⟩

theorem fsub_roundsTo (free : Word) (ha : isFinite a = true) (hb : isFinite b = true) :
    RoundsTo (fvalue a - fvalue b).natAbs 1 (fmag (fsub free a b)) ∧
      fsign (fsub free a b) =
        if fvalue a - fvalue b = 0 then fsign a && !fsign b
        else decide (fvalue a - fvalue b < 0) := by
  rw [fsub_of_finite ha hb, fmag_roundInt, fsign_roundInt]
  exact ⟨roundsTo_roundUnits _ Nat.one_pos, rfl⟩

theorem fmul_roundsTo (free : Word) (ha : isFinite a = true) (hb : isFinite b = true) :
    RoundsTo ((fvalue a).natAbs * (fvalue b).natAbs) unitsPerOne (fmag (fmul free a b)) ∧
      fsign (fmul free a b) = (fsign a != fsign b) := by
  refine ⟨?_, fsign_fmul ha hb⟩
  rw [fmul_of_finite ha hb, fmag_packF (roundUnits_lt _ _), natAbs_fvalue, natAbs_fvalue]
  exact roundsTo_roundUnits _ unitsPerOne_pos

theorem isZero_iff_fmag {x : F64} : isZero x = true ↔ fmag x = 0 := by simp [isZero]

theorem unitsOf_fmag_pos (h0 : isZero b = false) : 0 < unitsOf (fmag b) :=
  unitsOf_pos (Nat.pos_of_ne_zero fun h => by simp [isZero_iff_fmag.2 h] at h0)

theorem fdiv_roundsTo (free : Word) (ha : isFinite a = true) (hb : isFinite b = true)
    (h0 : isZero b = false) :
    RoundsTo ((fvalue a).natAbs * unitsPerOne) (fvalue b).natAbs (fmag (fdiv free a b)) ∧
      fsign (fdiv free a b) = (fsign a != fsign b) := by
  refine ⟨?_, fsign_fdiv ha hb h0⟩
  rw [fdiv_of_finite ha hb h0, fmag_packF (roundUnits_lt _ _), natAbs_fvalue, natAbs_fvalue]
  exact roundsTo_roundUnits _ (unitsOf_fmag_pos h0)

/-- Settles O54: each operation rounds its exact result once, and rounding is to nearest. -/
theorem roundingIsToNearestTiesToEven : Obligations.RoundingIsToNearestTiesToEven :=
  ⟨fun num _ hd => roundsTo_roundUnits num hd, fun free _ _ ha hb =>
    ⟨fadd_roundsTo free ha hb, fsub_roundsTo free ha hb, fmul_roundsTo free ha hb,
      fdiv_roundsTo free ha hb⟩⟩

/-- Settles O55: a whole number below 2^53 is an encoded magnitude, and rounding is exact on those. -/
theorem integersConvertExactly : Obligations.IntegersConvertExactly := by
  intro n hn
  obtain ⟨b, hb, hu⟩ := exists_unitsOf_nat hn
  have hb63 : b < 2 ^ 63 := Nat.lt_trans hb infBits_lt
  have henc : f64OfNat n = packF false b := by
    rw [f64OfNat, ← hu, roundUnits_exact_one (Nat.le_of_lt hb)]
  rw [henc, isFinite_iff, fmag_packF hb63, fvalue_packF hb63, hu]
  exact ⟨hb, by simp⟩

end Rounding

section Laws

theorem powDomain_iff {x y : F64} : powDomain x y = true ↔
    isFinite x = true ∧ fle posZero x = true ∧ isFinite y = true ∧ flt posZero y = true := by
  simp [powDomain, and_assoc]

theorem isNaN_of_fle {x y : F64} (h : fle x y = true) : isNaN y = false := (fle_iff.1 h).2.1

/-- A finite number that is not below zero is a lawful result of `powFn` (law P2). -/
theorem powResult_of_finite {x r : F64} (hf : isFinite r = true) (h0 : fle posZero r = true) :
    isNaN r = false ∧ fle posZero r = true ∧ (isFinite r = true ∨ flt one64 x = true) :=
  ⟨isNaN_of_isFinite hf, h0, Or.inl hf⟩

theorem fle_posZero_posZero : fle posZero posZero = true := by decide

theorem fle_posZero_one64 : fle posZero one64 = true := by decide +kernel

theorem powDomain_one64 {y : F64} (hf : isFinite y = true) (h0 : flt posZero y = true) :
    powDomain one64 y = true := powDomain_iff.2 ⟨isFinite_one64, fle_posZero_one64, hf, h0⟩

theorem powDomain_posZero {y : F64} (hf : isFinite y = true) (h0 : flt posZero y = true) :
    powDomain posZero y = true := powDomain_iff.2 ⟨isFinite_posZero, fle_posZero_posZero, hf, h0⟩

/-- The correction gives every parameter the laws of 00_scope.md R14. -/
theorem powLaws_lawfulPow (raw : F64 → F64 → F64) : PowLaws (lawfulPow raw) where
  p1 x := if_pos rfl
  p2 x y h := by
    obtain ⟨hx, hx0, -, -⟩ := powDomain_iff.1 h
    unfold lawfulPow
    rw [if_pos h]
    split
    · exact powResult_of_finite hx hx0
    split
    · exact powResult_of_finite isFinite_one64 fle_posZero_one64
    split
    · exact powResult_of_finite isFinite_posZero fle_posZero_posZero
    split
    next hraw =>
      simp only [Bool.and_eq_true, Bool.or_eq_true] at hraw
      exact ⟨isNaN_of_fle hraw.1, hraw⟩
    next => exact powResult_of_finite isFinite_posZero fle_posZero_posZero
  p3 y hf h0 := by
    have hne : posZero ≠ one64 := by decide
    constructor
    · simp [lawfulPow, powDomain_one64 hf h0]
    · by_cases hy : y = one64 <;> simp [lawfulPow, hy, hne, powDomain_posZero hf h0]

/-- The correction leaves a function that has the laws as it is (log 4). -/
theorem lawfulPow_of_powLaws {f : F64 → F64 → F64} (hf : PowLaws f) : lawfulPow f = f := by
  funext x y
  unfold lawfulPow
  split
  next hy => rw [hy, hf.p1]
  split
  next hxy =>
    obtain ⟨-, -, hy, hy0⟩ := powDomain_iff.1 hxy
    obtain ⟨hone, hzero⟩ := hf.p3 y hy hy0
    obtain ⟨-, hle, hfin⟩ := hf.p2 x y hxy
    split
    next hx => rw [hx, hone]
    split
    next hx => rw [hx, hzero]
    exact if_pos (by simpa [hle] using hfin)
  next => rfl

/-- Settles O56: the correction imposes the laws and changes no lawful function. -/
theorem powFnHasExactlyItsLaws : Obligations.PowFnHasExactlyItsLaws :=
  ⟨powLaws_lawfulPow, fun _ => lawfulPow_of_powLaws, powLaws_lawfulPow Config.powRaw⟩

/-- The zeros are `+0.0` and `-0.0`. -/
theorem isZero_cases {x : F64} (h : isZero x = true) : x = posZero ∨ x = fneg posZero := by
  have hm : fmag x = 0 := isZero_iff_fmag.1 h
  have h0 : fmag posZero = 0 := by decide
  cases hs : fsign x
  · exact Or.inl (eq_of_fsign_fmag (by rw [hs]; decide) (by rw [hm, h0]))
  · exact Or.inr (eq_of_fsign_fmag (by rw [hs]; decide) (by rw [hm, fmag_fneg, h0]))

/-- A zero is a lawful result of `sinFn` (law S2). -/
theorem sinResult_of_isZero {x : F64} (h : isZero x = true) :
    isFinite x = true ∧ fle negOne64 x = true ∧ fle x one64 = true := by
  rcases isZero_cases h with rfl | rfl <;> decide +kernel

/-- The correction gives every parameter the laws of 00_scope.md R15. -/
theorem sinLaws_lawfulSin (raw : F64 → F64) : SinLaws (lawfulSin raw) where
  s1 := ⟨if_pos (by decide), if_pos (by decide)⟩
  s2 x hx := by
    unfold lawfulSin
    split
    next h0 => exact sinResult_of_isZero h0
    split
    next hraw => simpa [and_assoc] using hraw
    next => exact sinResult_of_isZero (by decide)

/-- The correction leaves a function that has the laws as it is (log 5). -/
theorem lawfulSin_of_sinLaws {f : F64 → F64} (hf : SinLaws f) : lawfulSin f = f := by
  obtain ⟨hpos, hneg⟩ := hf.s1
  funext x
  unfold lawfulSin
  split
  next h0 => rcases isZero_cases h0 with rfl | rfl <;> simp [hpos, hneg]
  split
  next hx =>
    obtain ⟨hfin, hlo, hhi⟩ := hf.s2 x hx
    simp [hfin, hlo, hhi]
  next => rfl

theorem sinLaws_sinFn : SinLaws sinFn := sinLaws_lawfulSin Config.sinRaw

/-- Settles O57: the correction imposes the laws and changes no lawful function. -/
theorem sinFnHasExactlyItsLaws : Obligations.SinFnHasExactlyItsLaws :=
  ⟨sinLaws_lawfulSin, fun _ => lawfulSin_of_sinLaws, sinLaws_sinFn⟩

end Laws

section Sine

variable {free : Word} {a b x t : F64}

theorem fadd_comm_of_finite (ha : isFinite a = true) (hb : isFinite b = true) :
    fadd free a b = fadd free b a := by
  rw [fadd_of_finite ha hb, fadd_of_finite hb ha, Bool.and_comm, Int.add_comm]

/-- A number in [0, 1] is finite. -/
theorem isFinite_of_inUnit (h : InUnit x) : isFinite x = true :=
  isFinite_of_bounds isFinite_posZero isFinite_one64 h.1 h.2

theorem fle_of_flt (h : flt a b = true) : fle a b = true := by
  obtain ⟨ha, hb, hlt⟩ := flt_iff.1 h
  exact fle_iff.2 ⟨ha, hb, Int.le_of_lt hlt⟩

/-- The rounded fraction of a number is in [0, 1] (41_oscillator.md R162). -/
theorem inUnit_fracPart (x : F64) : InUnit (fracPart x) := by
  have hU : (0 : Int) < unitsPerOne := by exact_mod_cast unitsPerOne_pos
  have hlo := Int.emod_nonneg (fvalue x) (Int.ne_of_gt hU)
  have hhi := Int.emod_lt_of_pos (fvalue x) hU
  refine ⟨fle_iff.2 ⟨isNaN_posZero, isNaN_roundInt _ _, ?_⟩,
    fle_iff.2 ⟨isNaN_roundInt _ _, isNaN_one64, ?_⟩⟩
  · exact le_fvalue_roundInt isNaN_posZero (by rwa [fvalue_posZero])
  · exact fvalue_roundInt_le isNaN_one64 (by rw [fvalue_one64]; exact Int.le_of_lt hhi)

/-- The fold of a finite number is in [0, 1] (41_oscillator.md R162). -/
theorem inUnit_fold (hx : isFinite x = true) : InUnit (fold free x) := by
  rw [fold_of_finite hx]
  split
  next h => exact ⟨h.1, fle_of_flt h.2⟩
  next => exact inUnit_fracPart x

/-- A number in [0, 1] has a magnitude of at most 1.0. -/
theorem unitsOf_fmag_le_of_inUnit (h : InUnit t) : unitsOf (fmag t) ≤ unitsPerOne := by
  have h0 := (fle_iff.1 h.1).2.2
  have h1 := (fle_iff.1 h.2).2.2
  rw [fvalue_posZero] at h0
  rw [fvalue_one64] at h1
  rw [← natAbs_fvalue]
  omega

/-- In a sound state the instantaneous phase is in [0, 1] (41_oscillator.md R163). -/
theorem inUnit_instantPhase {s : State} (free : Nat → Word) (hs : OscInvariant s) :
    InUnit (instantPhase free s.oscCfg s.osc) := by
  obtain ⟨⟨hphase, hlo, hhi, hsign⟩, -, hofs, -⟩ := hs
  have habs : fle (fabs s.osc.phase) one64 = true := by
    have : fabs s.osc.phase = s.osc.phase := eq_of_fsign_fmag (by simp [hsign]) (by simp)
    rw [this]; exact fle_of_flt hhi
  apply inUnit_fold
  rw [fadd_comm_of_finite hphase hofs]
  exact isFinite_fadd_small hofs hphase habs

/-- The argument of `sinFn` of a phase in [0, 1] is finite (41_oscillator.md R165). -/
theorem isFinite_twoPi_fmul (ht : InUnit t) : isFinite (fmul free twoPi64 t) = true := by
  have hpi : isFinite twoPi64 = true := by decide
  have hle : fmag (fmul free twoPi64 t) ≤ fmag twoPi64 :=
    fmag_fmul_le hpi (isFinite_of_inUnit ht)
      (Nat.mul_le_mul_left _ (unitsOf_fmag_le_of_inUnit ht))
  rw [isFinite_iff] at *
  exact Nat.lt_of_le_of_lt hle hpi

/-- The sample of a Sine is `sinFn` of the instantaneous phase's angle (41_oscillator.md R165, R169). -/
theorem oscSample_out_sine {free : Nat → Word} {c : OscConfig} (hc : c.mode = .sine)
    (r : OscRuntime) :
    (oscSample free c r).out = sineWave (free 5) (instantPhase (freeFrom free 1) c r) := by
  simp [oscSample, hc]

/-- Settles O51: the phase is in [0, 1], so the angle is finite and law S2 bounds its sine. -/
theorem sineOutputStaysInRange : Obligations.SineOutputStaysInRange := by
  intro s hs hmode
  refine ⟨_, rfl, ?_⟩
  rw [drawn_osc, oscSample_out_sine hmode]
  exact sinLaws_sinFn.s2 _ (isFinite_twoPi_fmul (inUnit_instantPhase _ hs))

end Sine

section Passive

/-- Settles O13, by the cases of a step. -/
theorem coreIsPassive : Obligations.CoreIsPassive := by
  intro s hnone
  rcases step_cases s with ⟨-, hstep⟩ | ⟨i, rest, hsome, -⟩
  · exact hstep
  · rw [hnone] at hsome
    cases hsome

end Passive

section Channels

/-- An envelope command changes the envelope's runtime registers alone (and the count of draws), by a
function of the free words, the envelope's configuration and its runtime registers (00_scope.md R2). -/
theorem exec_envelope {i : Instr} (hi : i ∈ [Instr.envGateOn, .envGateOff, .envStep, .envReset]) :
    ∃ f : (Nat → Word) → EnvConfig → EnvRuntime → EnvRuntime, ∀ s : State, ∃ d,
      exec i s = .next { s with env := f (freeWords s) s.envCfg s.env, draws := d } := by
  simp only [List.mem_cons, List.not_mem_nil, or_false] at hi
  rcases hi with rfl | rfl | rfl | rfl
  case inl => exact ⟨gateOn, fun s => ⟨_, rfl⟩⟩
  case inr.inl =>
    refine ⟨fun free c r =>
      if gateOffEnabled Config.gateOffNeedsGated c r then enterRelease free c r else r, fun s => ?_⟩
    by_cases h : gateOffEnabled Config.gateOffNeedsGated s.envCfg s.env
    · exact ⟨s.draws + 1, by simp [exec, execEnvGateOff, gateOff, drawn, h]⟩
    · exact ⟨s.draws, by simp [exec, execEnvGateOff, gateOff, h]⟩
  case inr.inr.inl =>
    refine ⟨fun free c r => if envHolds c r then { r with out := r.amp } else envRamp free c r,
      fun s => ?_⟩
    rcases execEnvStep_cases s with ⟨h, hstep⟩ | ⟨h, hstep⟩
    · exact ⟨s.draws, by simp [exec, hstep, h]⟩
    · exact ⟨s.draws + 1, by simp [exec, hstep, h, drawn]⟩
  case inr.inr.inr => exact ⟨fun _ _ _ => _, fun s => ⟨_, rfl⟩⟩

/-- An oscillator command changes the oscillator's runtime registers alone (and the count of draws), by a
function of the free words, the oscillator's configuration and its runtime registers (00_scope.md R2). -/
theorem exec_oscillator {i : Instr} (hi : i ∈ [Instr.oscGen, .oscReset]) :
    ∃ f : (Nat → Word) → OscConfig → OscRuntime → OscRuntime, ∀ s : State, ∃ d,
      exec i s = .next { s with osc := f (freeWords s) s.oscCfg s.osc, draws := d } := by
  simp only [List.mem_cons, List.not_mem_nil, or_false] at hi
  rcases hi with rfl | rfl
  case inl => exact ⟨oscSample, fun s => ⟨_, rfl⟩⟩
  case inr => exact ⟨fun _ _ _ => _, fun s => ⟨_, rfl⟩⟩

/-- Equal counts of draws give equal free words (log 3). -/
theorem freeWords_congr {s t : State} (h : s.draws = t.draws) : freeWords s = freeWords t := by
  rw [freeWords, freeWords, h]

/-- Settles O53: a command's result is a function of its own channel's registers and the free words. -/
theorem channelsShareNoState : Obligations.ChannelsShareNoState := by
  constructor
  · intro i hi s t hcfg henv hdraws
    obtain ⟨f, hf⟩ := exec_envelope hi
    obtain ⟨_, hs⟩ := hf s
    obtain ⟨_, ht⟩ := hf t
    refine ⟨_, _, hs, ht, ?_, rfl, rfl, rfl⟩
    simp only [freeWords_congr hdraws, hcfg, henv]
  · intro i hi s t hcfg hosc hdraws
    obtain ⟨f, hf⟩ := exec_oscillator hi
    obtain ⟨_, hs⟩ := hf s
    obtain ⟨_, ht⟩ := hf t
    refine ⟨_, _, hs, ht, ?_, rfl, rfl, rfl⟩
    simp only [freeWords_congr hdraws, hcfg, hosc]

end Channels

end Sys2Proof.Machine
end

section
/-! What one input does to CORE, said once (20_memory.md R70 to R72): the register map, the one error an input
can raise, and the error record's own invariant (10_state.md R24, R25). -/

namespace Sys2Proof.Machine

section RegisterMap

/-- Settles O5: the map lists every register, and its rows are those of R21. -/
theorem registerMapAfterReset : Obligations.RegisterMapAfterReset :=
  ⟨fun r => by cases r <;> decide, by decide⟩

/-- Settles O6, over the 64 indices. -/
theorem unmappedIndicesAreTheListedOnes : Obligations.UnmappedIndicesAreTheListedOnes := by
  unfold Obligations.UnmappedIndicesAreTheListedOnes
  decide

@[simp] theorem kindAt_regIndex (r : Reg) : kindAt (regIndex r) = some (regKind r) := by simp [kindAt]

/-- An index at which no register but a read-only one stands. -/
theorem kindAt_of_forall_ro {idx : RegIndex} (h : ∀ r, regAt idx = some r → regKind r = .ro) :
    kindAt idx = none ∨ kindAt idx = some .ro := by
  cases hr : regAt idx with
  | none => simp [kindAt, hr]
  | some r => simp [kindAt, hr, h r hr]

end RegisterMap

section Inputs

theorem executeWord_of_decode {v : Word} {j : Instr} (h : decode v = .command j) (s : State) :
    executeWord v s = exec j s := by simp [executeWord, h]

/-- Settles O3: the step performs the write, and a write to `CMD` executes its word. -/
theorem stepRunsTheDecodedCommand : Obligations.StepRunsTheDecodedCommand := by
  intro s w rest j hin hdec
  calc step s = portWrite (regIndex .cmd) w (withInputs rest s) := step_of_inputs hin
    _ = executeWord w (respond none (withInputs rest s)) := portWrite_cmd w _
    _ = exec j (respond none (withInputs rest s)) := executeWord_of_decode hdec _

/-- A word that decodes to a command is that command's word (30_encoding.md R94). -/
theorem eq_encode_of_decode {v : Word} {j : Instr} (h : decode v = .command j) : v = encode j := by
  unfold decode at h
  repeat' split at h
  all_goals cases h
  all_goals assumption

/-- The error an input can raise, of which kind and with which information (60_exceptions.md R232 to R234). -/
inductive Raises : Input → Cause → Word → Prop where
  | value {r : Reg} {v : Word} (hk : regKind r = .rw) (hv : legalValue r v = false) :
    Raises (.write (regIndex r) v) .value (writeInfo (regIndex r))
  | command {w : Word} (hw : decode w = .illegal w) : Raises (.write (regIndex .cmd) w) .command w
  | read {idx : RegIndex} (hk : kindAt idx = none) : Raises (.read idx) .access (readInfo idx)
  | write {idx : RegIndex} {v : Word} (hk : kindAt idx = none ∨ kindAt idx = some .ro) :
    Raises (.write idx v) .access (writeInfo idx)

/-- `Effect i s t`: the input `i` takes the state `s`, its response already in place, to `t`. -/
inductive Effect : Input → State → State → Prop where
  | read {idx : RegIndex} {s : State} : Effect (.read idx) s s
  | raise {i : Input} {c : Cause} {info : Word} {s : State} (h : Raises i c info) :
    Effect i s (raiseError c info s)
  | store {r : Reg} {v : Word} {s : State} (hv : legalValue r v = true) :
    Effect (.write (regIndex r) v) s (writeReg r v s)
  | command {j : Instr} {s t : State} (h : exec j s = .next t) :
    Effect (.write (regIndex .cmd) (encode j)) s t
  | hardReset {s : State} : Effect .hardReset s (hardReset s)

theorem portRead_effect (idx : RegIndex) (s : State) :
    ∃ w, Effect (.read idx) (respond w s) (portRead idx s) := by
  rcases portRead_cases idx s with ⟨r, -, h⟩ | ⟨hidx, h⟩ <;> rw [h]
  · exact ⟨_, .read⟩
  · exact ⟨some 0x0, .raise (.read (by simp [kindAt, hidx]))⟩

theorem executeWord_effect {v : Word} {s t : State} (h : executeWord v s = .next t) :
    Effect (.write (regIndex .cmd) v) s t := by
  rcases executeWord_cases v s with ⟨j, hdec, hv⟩ | ⟨hdec, hv⟩ <;> rw [hv] at h
  · rw [eq_encode_of_decode hdec]
    exact .command h
  · cases h
    exact .raise (.command hdec)

theorem writeIndex_effect {idx : RegIndex} {v : Word} {s t : State}
    (h : writeIndex idx v s = .next t) : Effect (.write idx v) s t := by
  rcases writeIndex_cases idx v s with
    ⟨hro, hw⟩ | ⟨rfl, hw⟩ | ⟨r, hr, -, hv, hw⟩ | ⟨r, hr, hk, hv, hw⟩ <;> rw [hw] at h
  · cases h
    exact .raise (.write (kindAt_of_forall_ro hro))
  · exact executeWord_effect h
  · cases h
    rw [← regIndex_of_regAt hr]
    exact .store hv
  · cases h
    rw [← regIndex_of_regAt hr]
    exact .raise (.value hk hv)

/-- One input, performed, has one of the five effects, and leaves a response. -/
theorem performInput_effect {i : Input} {s t : State} (h : performInput i s = .next t) :
    ∃ w, Effect i (respond w s) t := by
  cases i with
  | read idx => cases h; exact portRead_effect idx s
  | write idx v => exact ⟨none, writeIndex_effect h⟩
  | hardReset => cases h; exact ⟨none, .hardReset⟩

/-- What a command can change: nothing, the error record, or the runtime registers of its own channel (and the
count of draws). -/
theorem exec_cases {j : Instr} {s t : State} (h : exec j s = .next t) :
    t = s ∨ (j = .clrerr ∧ t = clearErrors s) ∨ (∃ r d, t = { s with env := r, draws := d }) ∨
    (j ∈ [Instr.oscGen, .oscReset] ∧ ∃ r d, t = { s with osc := r, draws := d }) := by
  have envelope (hj : j ∈ [Instr.envGateOn, .envGateOff, .envStep, .envReset]) :
      ∃ r d, t = { s with env := r, draws := d } := by
    obtain ⟨f, hf⟩ := exec_envelope hj
    obtain ⟨d, hd⟩ := hf s
    rw [hd] at h
    cases h
    exact ⟨_, _, rfl⟩
  have oscillator (hj : j ∈ [Instr.oscGen, .oscReset]) :
      ∃ r d, t = { s with osc := r, draws := d } := by
    obtain ⟨f, hf⟩ := exec_oscillator hj
    obtain ⟨d, hd⟩ := hf s
    rw [hd] at h
    cases h
    exact ⟨_, _, rfl⟩
  cases j with
  | nop => cases h; exact .inl rfl
  | clrerr => cases h; exact .inr (.inl ⟨rfl, rfl⟩)
  | envGateOn | envGateOff | envStep | envReset => exact .inr (.inr (.inl (envelope (by simp))))
  | oscGen | oscReset => exact .inr (.inr (.inr ⟨by simp, oscillator (by simp)⟩))

/-- Commands raise nothing, and `clrerr` alone changes the error record (60_exceptions.md R235). -/
theorem exec_err {j : Instr} {s t : State} (h : exec j s = .next t) :
    (j = .clrerr ∧ t = clearErrors s) ∨ t.err = s.err := by
  rcases exec_cases h with rfl | hclear | ⟨_, _, rfl⟩ | ⟨-, _, _, rfl⟩
  · exact .inr rfl
  · exact .inl hclear
  · exact .inr rfl
  · exact .inr rfl

/-- No command changes a configuration register (70_reset_and_hazards.md R261). -/
theorem exec_config {j : Instr} {s t : State} (h : exec j s = .next t) :
    t.envCfg = s.envCfg ∧ t.oscCfg = s.oscCfg := by
  rcases exec_cases h with rfl | ⟨-, rfl⟩ | ⟨_, _, rfl⟩ | ⟨-, _, _, rfl⟩ <;> exact ⟨rfl, rfl⟩

@[simp] theorem writeReg_err (r : Reg) (v : Word) (s : State) : (writeReg r v s).err = s.err := by
  cases r <;> rfl

@[simp] theorem writeReg_env (r : Reg) (v : Word) (s : State) : (writeReg r v s).env = s.env := by
  cases r <;> rfl

@[simp] theorem writeReg_osc (r : Reg) (v : Word) (s : State) : (writeReg r v s).osc = s.osc := by
  cases r <;> rfl

/-- What one input does to the error record: nothing, its one error, or a clearing. -/
theorem Effect.err {i : Input} {s t : State} (h : Effect i s t) :
    t.err = s.err ∨ (∃ c info, Raises i c info ∧ t.err = recordError c info s.err) ∨
    (t.err = { status := 0x0, errInfo := 0x0 } ∧
      (i = .hardReset ∨ i = .write (regIndex .cmd) (encode .clrerr))) := by
  cases h with
  | read => exact .inl rfl
  | raise hr => exact .inr (.inl ⟨_, _, hr, rfl⟩)
  | store => exact .inl (by simp)
  | command hx =>
    rcases exec_err hx with ⟨rfl, rfl⟩ | herr
    · exact .inr (.inr ⟨rfl, .inr rfl⟩)
    · exact .inl herr
  | hardReset => exact .inr (.inr ⟨rfl, .inl rfl⟩)

/-- Settles O17, by the effects of an input and the errors it can raise. -/
theorem oneInputRaisesAtMostOneError : Obligations.OneInputRaisesAtMostOneError := by
  intro i s t h
  obtain ⟨w, heff⟩ := performInput_effect h
  rcases heff.err with hkeep | ⟨c, info, hraise, herr⟩ | hclear
  · exact .inl hkeep
  · right
    cases hraise with
    | value hk hv => exact .inl ⟨_, _, rfl, hk, hv, herr⟩
    | command hw => exact .inr (.inl ⟨_, rfl, hw, herr⟩)
    | read hk => exact .inr (.inr (.inl ⟨_, rfl, hk, herr⟩))
    | write hk => exact .inr (.inr (.inr (.inl ⟨_, _, rfl, hk, herr⟩)))
  · exact .inr (.inr (.inr (.inr (.inr hclear))))

end Inputs

section ErrorRecord

/-- What `ERR_INFO` holds of an error of each kind (10_state.md R25). -/
def InfoOf : Cause → Word → Prop
  | .value, info => ValueInfo info
  | .command, info => CommandInfo info
  | .access, info => AccessInfo info

theorem errorRecordSound_iff {e : ErrorRecord} : ErrorRecordSound e ↔ e.status &&& ~~~0x37#64 = 0 ∧
    ((e.status = 0 ∧ e.errInfo = 0) ∨ ∃ c, FirstErrorIs c e.status ∧ InfoOf c e.errInfo) := by
  constructor
  · rintro ⟨hres, hempty | hval | hcmd | hacc⟩
    · exact ⟨hres, .inl hempty⟩
    · exact ⟨hres, .inr ⟨.value, hval⟩⟩
    · exact ⟨hres, .inr ⟨.command, hcmd⟩⟩
    · exact ⟨hres, .inr ⟨.access, hacc⟩⟩
  · rintro ⟨hres, hempty | ⟨c, hc⟩⟩
    · exact ⟨hres, .inl hempty⟩
    · cases c with
      | value => exact ⟨hres, .inr (.inl hc)⟩
      | command => exact ⟨hres, .inr (.inr (.inl hc))⟩
      | access => exact ⟨hres, .inr (.inr (.inr hc))⟩

theorem infoIndex_readInfo (idx : RegIndex) : infoIndex (readInfo idx) = idx := by
  simp [infoIndex, readInfo]

theorem infoIndex_writeInfo (idx : RegIndex) : infoIndex (writeInfo idx) = idx := by
  simp [infoIndex, writeInfo]

/-- The information of an error an input raises is of that error's kind. -/
theorem Raises.infoOf {i : Input} {c : Cause} {info : Word} (h : Raises i c info) : InfoOf c info := by
  cases h with
  | value hk _ => exact ⟨by rw [infoIndex_writeInfo], by rw [infoIndex_writeInfo, kindAt_regIndex, hk]⟩
  | command hw => exact hw
  | read hk => exact .inl ⟨by rw [infoIndex_readInfo], by rwa [infoIndex_readInfo]⟩
  | write hk => exact .inr ⟨by rw [infoIndex_writeInfo], by rwa [infoIndex_writeInfo]⟩

theorem causeCode_ne_zero (c : Cause) : causeCode c ≠ 0 := by cases c <;> decide

theorem reserved_setSticky {st : Word} (c : Cause) (h : st &&& ~~~0x37#64 = 0) :
    setSticky c st &&& ~~~0x37#64 = 0 := by
  have hbit : stickyBit c &&& ~~~0x37#64 = 0 := by cases c <;> decide
  rw [setSticky, BitVec.and_or_distrib_right, h, hbit]
  rfl

/-- A later error's sticky bit leaves `FIRST_CAUSE` and the first error's own sticky bit. -/
theorem firstErrorIs_setSticky {st : Word} {c : Cause} (c' : Cause) (h : FirstErrorIs c st) :
    FirstErrorIs c (setSticky c' st) := by
  obtain ⟨hfirst, hbit⟩ := h
  constructor
  · have hclear : (stickyBit c').extractLsb' 4 2 = 0#2 := by cases c' <;> decide
    rw [← hfirst, firstCause, firstCause, setSticky, BitVec.extractLsb'_or, hclear, BitVec.or_zero]
  · intro hzero
    rw [setSticky, BitVec.and_or_distrib_right] at hzero
    exact hbit (BitVec.or_eq_zero_iff.1 hzero).1

/-- A sound record without a first cause is the cleared one. -/
theorem cleared_of_sound {e : ErrorRecord} (h : ErrorRecordSound e) (h0 : firstCause e.status = 0) :
    e.status = 0 := by
  obtain ⟨-, ⟨hst, -⟩ | ⟨c, ⟨hfirst, -⟩, -⟩⟩ := errorRecordSound_iff.1 h
  · exact hst
  · exact absurd (hfirst.symm.trans h0) (causeCode_ne_zero c)

/-- A sound record with a first cause describes that error. -/
theorem firstErrorIs_of_sound {e : ErrorRecord} (h : ErrorRecordSound e)
    (h0 : firstCause e.status ≠ 0) : ∃ c, FirstErrorIs c e.status ∧ InfoOf c e.errInfo := by
  obtain ⟨-, ⟨hst, -⟩ | hc⟩ := errorRecordSound_iff.1 h
  · rw [hst] at h0
    exact absurd (by decide) h0
  · exact hc

/-- `raise` keeps the record sound (60_exceptions.md R231). -/
theorem errorRecordSound_recordError {e : ErrorRecord} {c : Cause} {info : Word}
    (h : ErrorRecordSound e) (hi : InfoOf c info) : ErrorRecordSound (recordError c info e) := by
  rcases recordError_cases c info e with ⟨h0, hrec⟩ | ⟨h0, hrec⟩ <;> rw [hrec, errorRecordSound_iff]
  · simp only [cleared_of_sound h h0]
    exact ⟨by cases c <;> decide, .inr ⟨c, by cases c <;> decide, hi⟩⟩
  · obtain ⟨c₀, hfirst, hinfo⟩ := firstErrorIs_of_sound h h0
    exact ⟨reserved_setSticky c h.1, .inr ⟨c₀, firstErrorIs_setSticky c hfirst, hinfo⟩⟩

theorem errorRecordSound_cleared : ErrorRecordSound { status := 0x0, errInfo := 0x0 } :=
  ⟨by decide, .inl ⟨rfl, rfl⟩⟩

/-- Every effect of an input keeps the error record sound (10_state.md R24, R25). -/
theorem Effect.errorRecordSound {i : Input} {s t : State} (he : Effect i s t)
    (h : ErrorRecordSound s.err) : ErrorRecordSound t.err := by
  rcases he.err with hkeep | ⟨c, info, hraise, herr⟩ | ⟨hclear, -⟩
  · rwa [hkeep]
  · rw [herr]
    exact errorRecordSound_recordError h hraise.infoOf
  · rw [hclear]
    exact errorRecordSound_cleared

end ErrorRecord

end Sys2Proof.Machine
end

section
/-! Numbers of a bounded magnitude, and what the binary64 operations do to the bound. Below 2^53 a whole number
is an encoding, so that rounding does not pass it. -/

namespace Sys2Proof.Machine

/-- The magnitude of `x` is at most the whole number `n`. -/
def AtMost (n : Nat) (x : F64) : Prop := unitsOf (fmag x) ≤ n * unitsPerOne

namespace AtMost

variable {m n : Nat} {a b x : F64} {free : Word}

theorem mono (h : AtMost m x) (hmn : m ≤ n) : AtMost n x :=
  Nat.le_trans h (Nat.mul_le_mul_right _ hmn)

theorem fmag_lt_infBits (hn : n < 2 ^ 53) (h : AtMost n x) : fmag x < infBits := by
  obtain ⟨b, hb, hu⟩ := exists_unitsOf_nat hn
  have hle : unitsOf (fmag x) ≤ unitsOf b := hu ▸ h
  exact Nat.lt_of_le_of_lt (unitsOf_le_iff.1 hle) hb

theorem isFinite (hn : n < 2 ^ 53) (h : AtMost n x) : Machine.isFinite x = true :=
  isFinite_iff.2 (h.fmag_lt_infBits hn)

theorem of_inUnit (h : InUnit x) : AtMost 1 x := by
  simpa [AtMost] using unitsOf_fmag_le_of_inUnit h

theorem fneg (h : AtMost n x) : AtMost n (Machine.fneg x) := by simpa [AtMost] using h

theorem iff_fle_fabs : AtMost 1 x ↔ fle (fabs x) one64 = true := by
  have hv : fvalue (fabs x) = (unitsOf (fmag x) : Int) := by simp [fvalue]
  rw [fle_iff, hv, fvalue_one64]
  constructor
  · intro h
    refine ⟨isNaN_of_isFinite (by rw [isFinite_fabs]; exact h.isFinite (by decide)), isNaN_one64, ?_⟩
    simpa [AtMost] using h
  · rintro ⟨-, -, h⟩
    simpa [AtMost] using h

theorem roundUnits {num den : Nat} (hn : n < 2 ^ 53) (hd : 0 < den)
    (h : num ≤ n * unitsPerOne * den) : unitsOf (Machine.roundUnits num den) ≤ n * unitsPerOne := by
  obtain ⟨b, -, hu⟩ := exists_unitsOf_nat hn
  rw [← hu, unitsOf_le_iff]
  exact roundUnits_le hd (by rwa [hu])

theorem roundInt {zn : Bool} {z : Int} (hn : n < 2 ^ 53) (h : z.natAbs ≤ n * unitsPerOne) :
    AtMost n (Machine.roundInt zn z) := by
  rw [AtMost, fmag_roundInt]
  exact roundUnits hn Nat.one_pos (by simpa using h)

theorem fadd (ha : AtMost m a) (hb : AtMost n b) (hmn : m + n < 2 ^ 53) :
    AtMost (m + n) (Machine.fadd free a b) := by
  rw [fadd_of_finite (ha.isFinite (by omega)) (hb.isFinite (by omega))]
  apply roundInt hmn
  calc (fvalue a + fvalue b).natAbs ≤ (fvalue a).natAbs + (fvalue b).natAbs := Int.natAbs_add_le _ _
    _ = unitsOf (fmag a) + unitsOf (fmag b) := by rw [natAbs_fvalue, natAbs_fvalue]
    _ ≤ m * unitsPerOne + n * unitsPerOne := Nat.add_le_add ha hb
    _ = (m + n) * unitsPerOne := (Nat.add_mul ..).symm

theorem fsub (ha : AtMost m a) (hb : AtMost n b) (hmn : m + n < 2 ^ 53) :
    AtMost (m + n) (Machine.fsub free a b) := ha.fadd hb.fneg hmn

theorem fmul (ha : AtMost m a) (hb : AtMost n b) (hm : m < 2 ^ 53) (hn : n < 2 ^ 53)
    (hmn : m * n < 2 ^ 53) : AtMost (m * n) (Machine.fmul free a b) := by
  rw [fmul_of_finite (ha.isFinite hm) (hb.isFinite hn), AtMost, fmag_packF (roundUnits_lt _ _)]
  apply roundUnits hmn unitsPerOne_pos
  calc unitsOf (fmag a) * unitsOf (fmag b) ≤ m * unitsPerOne * (n * unitsPerOne) := Nat.mul_le_mul ha hb
    _ = m * n * unitsPerOne * unitsPerOne := by ring

/-- A quotient whose divisor is no smaller than its dividend. -/
theorem fdiv (ha : Machine.isFinite a = true) (hb : Machine.isFinite b = true) (h0 : isZero b = false)
    (h : unitsOf (fmag a) ≤ unitsOf (fmag b)) : AtMost 1 (Machine.fdiv free a b) := by
  rw [fdiv_of_finite ha hb h0, AtMost, fmag_packF (roundUnits_lt _ _)]
  apply roundUnits (by decide) (unitsOf_fmag_pos h0)
  calc unitsOf (fmag a) * unitsPerOne ≤ unitsOf (fmag b) * unitsPerOne := Nat.mul_le_mul_right _ h
    _ = 1 * unitsPerOne * unitsOf (fmag b) := by ring

/-- Two numbers in [0, 1] differ by at most 1. -/
theorem fsub_of_inUnit (ha : InUnit a) (hb : InUnit b) : AtMost 1 (Machine.fsub free a b) := by
  rw [fsub_of_finite (isFinite_of_inUnit ha) (isFinite_of_inUnit hb)]
  apply roundInt (by decide)
  have ha0 := (fle_iff.1 ha.1).2.2
  have ha1 := (fle_iff.1 ha.2).2.2
  have hb0 := (fle_iff.1 hb.1).2.2
  have hb1 := (fle_iff.1 hb.2).2.2
  rw [fvalue_posZero] at ha0 hb0
  rw [fvalue_one64] at ha1 hb1
  omega

end AtMost

end Sys2Proof.Machine
end

section
/-! The envelope's part of the invariant (10_state.md R57): the runtime registers stay sound through every
effect of an input, the ramp because it grows by at most 1 in each of the segment's steps. -/

namespace Sys2Proof.Machine

section Amplitudes

/-- What (E4) of 10_state.md R57 says of `ENV_BASE` and `ENV_AMP`. -/
abbrev Amplitude (x : F64) : Prop := InUnit x ∧ fsign x = false

theorem amplitude_posZero : Amplitude posZero := by decide +kernel

theorem inUnit_one64 : InUnit one64 := ⟨fle_posZero_one64, by decide +kernel⟩

theorem inUnit_clamp01 (x : F64) : InUnit (clamp01 x) := by
  rcases clamp01_cases x with ⟨-, h⟩ | ⟨hle, hge, h⟩ | ⟨-, h⟩ <;> rw [h]
  · exact inUnit_one64
  · exact ⟨hge, hle⟩
  · exact amplitude_posZero.1

/-- A sum onto an amplitude clamps to an amplitude, whatever is added: no `-0.0` arises (R122, R124). -/
theorem amplitude_clamp01_fadd {base x : F64} {free : Word} (hbase : Amplitude base) :
    Amplitude (clamp01 (fadd free base x)) := by
  refine ⟨inUnit_clamp01 _, ?_⟩
  rcases clamp01_cases (fadd free base x) with ⟨-, h⟩ | ⟨-, hge, h⟩ | ⟨-, h⟩ <;> rw [h]
  · decide
  · obtain ⟨-, hnum, hval⟩ := fle_iff.1 hge
    exact fsign_fadd_false hbase.2 hnum (by rwa [fvalue_posZero] at hval)
  · decide

theorem amplitude_envSample {free : Nat → Word} {ramp : F64} {r : EnvRuntime} (h : Amplitude r.base) :
    Amplitude (envSample free ramp r) := amplitude_clamp01_fadd h

theorem inUnit_of_legalLevel {v : F64} (h : legalLevel v = true) : InUnit v := by
  simpa [legalLevel] using h

end Amplitudes

section Runtime

/-- The envelope's runtime registers are sound: (E2) to (E4) of 10_state.md R57, and what makes them
inductive. -/
def EnvRuntimeSound (r : EnvRuntime) : Prop :=
  EnvIdleAtRest r ∧ EnvSegmentLive r ∧ EnvAmplitudesBounded r ∧ EnvSegmentShaped r

theorem legalShape_one64 : legalShape one64 = true := by decide +kernel

/-- Idle with every runtime register at rest is sound, whatever the last output was. -/
theorem envRuntimeSound_idle {r : EnvRuntime} (hstage : r.stage = .idle)
    (hrest : r.remain = 0 ∧ r.ramp = posZero ∧ r.inc = posZero ∧ r.delta = posZero ∧
      r.shape = one64 ∧ r.base = posZero ∧ r.amp = posZero)
    (hout : InUnit r.out) : EnvRuntimeSound r := by
  have ⟨_, _, _, _, _, hbase, hamp⟩ := hrest
  refine ⟨fun _ => hrest, fun h => absurd hstage h, ⟨?_, ?_, hout⟩, ?_, ?_⟩
  · rw [hbase]; exact amplitude_posZero
  · rw [hamp]; exact amplitude_posZero
  · simp [hstage]
  · simp [hstage, rampingStage]

/-- A Sustain just entered is sound: nothing ramps (40_envelope.md R112). -/
theorem envRuntimeSound_sustain {r : EnvRuntime} (hstage : r.stage = .sustain)
    (hremain : 1 ≤ r.remain.toNat)
    (hflat : r.ramp = posZero ∧ r.inc = posZero ∧ r.shape = one64 ∧ r.delta = posZero)
    (hamp : EnvAmplitudesBounded r) : EnvRuntimeSound r := by
  have ⟨hramp, hinc, hshape, _⟩ := hflat
  refine ⟨by simp [hstage], fun _ => ⟨hremain, ?_, ?_, ?_⟩, hamp, fun _ => hflat, ?_⟩
  · rw [hshape]; exact legalShape_one64
  · rw [hramp]; exact ⟨isFinite_posZero, fle_posZero_posZero⟩
  · rw [hinc]; exact ⟨isFinite_posZero, fle_posZero_posZero⟩
  · simp [hstage, rampingStage]

/-- A ramping segment is sound while its increment is in (0, 1] and its ramp at most the steps it took. -/
theorem envRuntimeSound_ramping {r : EnvRuntime} (hstage : rampingStage r.stage = true)
    (hremain : 1 ≤ r.remain.toNat) (hshape : legalShape r.shape = true)
    (hramp : isFinite r.ramp = true ∧ fle posZero r.ramp = true ∧
      fle r.ramp (f64OfNat (2 ^ 32 - r.remain.toNat)) = true)
    (hinc : isFinite r.inc = true ∧ flt posZero r.inc = true ∧ fle r.inc one64 = true)
    (hdelta : AtMost 1 r.delta) (hamp : EnvAmplitudesBounded r) : EnvRuntimeSound r := by
  obtain ⟨hrfin, hrlo, hrhi⟩ := hramp
  obtain ⟨hifin, hilo, hihi⟩ := hinc
  refine ⟨?_, fun _ => ⟨hremain, hshape, ⟨hrfin, hrlo⟩, hifin, fle_of_flt hilo⟩, hamp, ?_,
    fun _ => ⟨⟨hilo, hihi⟩, hrhi, hdelta.isFinite (by decide), AtMost.iff_fle_fabs.1 hdelta⟩⟩
  · intro h
    rw [h] at hstage
    cases hstage
  · intro h
    rw [h] at hstage
    cases hstage

theorem fle_posZero_f64OfNat (n : Nat) : fle posZero (f64OfNat n) = true := by
  have hlt := roundUnits_lt (n * unitsPerOne) 1
  refine fle_iff.2 ⟨isNaN_posZero, ?_, ?_⟩
  · rw [isNaN_eq_false, f64OfNat, fmag_packF hlt]
    exact roundUnits_le_infBits _ _
  · rw [fvalue_posZero]
    exact fvalue_nonneg_of_fsign (fsign_packF hlt)

theorem one_le_toNat_of_ne_zero {dur : Count} (h : dur ≠ 0) : 1 ≤ dur.toNat := by bv_omega

/-- A ramping segment just entered is sound (40_envelope.md R112 to R114). -/
theorem envRuntimeSound_start {r : EnvRuntime} {free : Word} {dur : Count}
    (hstage : rampingStage r.stage = true) (hdur : dur ≠ 0) (hremain : r.remain = dur)
    (hshape : legalShape r.shape = true) (hramp : r.ramp = posZero) (hinc : r.inc = increment free dur)
    (hdelta : AtMost 1 r.delta) (hamp : EnvAmplitudesBounded r) : EnvRuntimeSound r := by
  obtain ⟨hfin, -, hpos, hle⟩ := increment_facts (free := free) hdur
  have hnum := isNaN_of_isFinite hfin
  apply envRuntimeSound_ramping hstage _ hshape _ _ hdelta hamp
  · rw [hremain]
    exact one_le_toNat_of_ne_zero hdur
  · rw [hramp]
    exact ⟨isFinite_posZero, fle_posZero_posZero, fle_posZero_f64OfNat _⟩
  · rw [hinc]
    exact ⟨hfin, flt_iff.2 ⟨isNaN_posZero, hnum, by rwa [fvalue_posZero]⟩,
      fle_iff.2 ⟨hnum, isNaN_one64, hle⟩⟩

end Runtime

section Commands

variable {free : Nat → Word} {c : EnvConfig} {r : EnvRuntime}

/-- `env.gate.on` starts an Attack from the current amplitude (40_envelope.md R113). -/
theorem envRuntimeSound_gateOn (hc : EnvConfigLegal c) (h : EnvRuntimeSound r) :
    EnvRuntimeSound (gateOn free c r) := by
  obtain ⟨-, -, ⟨-, hamp, hout⟩, -⟩ := h
  obtain ⟨⟨hdur, -⟩, ⟨hshape, -⟩, -⟩ := hc
  exact envRuntimeSound_start rfl hdur rfl hshape rfl rfl
    (AtMost.fsub_of_inUnit inUnit_one64 hamp.1) ⟨hamp, hamp, hout⟩

/-- An enabled `env.gate.off` starts a Release from the current amplitude (40_envelope.md R114). -/
theorem envRuntimeSound_enterRelease (hc : EnvConfigLegal c) (h : EnvRuntimeSound r) :
    EnvRuntimeSound (enterRelease free c r) := by
  obtain ⟨-, -, ⟨-, hamp, hout⟩, -⟩ := h
  obtain ⟨⟨-, -, -, hdur⟩, ⟨-, -, hshape⟩, -⟩ := hc
  exact envRuntimeSound_start rfl hdur rfl hshape rfl rfl (AtMost.of_inUnit hamp.1).fneg
    ⟨hamp, hamp, hout⟩

/-- The segment after the one that ended with output `v` starts sound (40_envelope.md R112). -/
theorem envRuntimeSound_enterNext {v : F64} (hc : EnvConfigLegal c) (hv : Amplitude v)
    (hstage : r.stage ≠ .idle) (hramp : r.ramp = posZero) (hbase : r.base = v) (hamp : r.amp = v)
    (hout : r.out = v) : EnvRuntimeSound (enterNext free c v r) := by
  obtain ⟨⟨-, hdec, hsus, hrel⟩, ⟨-, hdecShape, hrelShape⟩, hlevel⟩ := hc
  subst hbase
  have hamps : EnvAmplitudesBounded r := ⟨hv, hamp ▸ hv, hout ▸ hv.1⟩
  cases hs : r.stage with
  | idle => exact absurd hs hstage
  | attack =>
    simp only [enterNext, hs]
    exact envRuntimeSound_start rfl hdec rfl hdecShape hramp rfl
      (AtMost.fsub_of_inUnit hv.1 (inUnit_of_legalLevel hlevel)).fneg hamps
  | decay =>
    simp only [enterNext, hs]
    exact envRuntimeSound_sustain rfl (one_le_toNat_of_ne_zero hsus) ⟨hramp, rfl, rfl, rfl⟩ hamps
  | sustain =>
    simp only [enterNext, hs]
    exact envRuntimeSound_start rfl hrel rfl hrelShape hramp rfl (AtMost.of_inUnit hv.1).fneg hamps
  | release =>
    simp only [enterNext, hs]
    exact envRuntimeSound_idle rfl ⟨rfl, hramp, rfl, rfl, rfl, rfl, rfl⟩ hamps.2.2

/-- One step of a ramp that has grown to at most `n`, by an increment of at most 1. -/
theorem fadd_ramp_le {free : Word} {ramp inc : F64} {n : Nat} (hn : n + 1 < 2 ^ 53)
    (hramp : isFinite ramp = true ∧ fle posZero ramp = true ∧ fle ramp (f64OfNat n) = true)
    (hinc : isFinite inc = true ∧ flt posZero inc = true ∧ fle inc one64 = true) :
    isFinite (fadd free ramp inc) = true ∧ fle posZero (fadd free ramp inc) = true ∧
      fle (fadd free ramp inc) (f64OfNat (n + 1)) = true := by
  obtain ⟨hrfin, hrlo, hrhi⟩ := hramp
  obtain ⟨hifin, hilo, hihi⟩ := hinc
  obtain ⟨-, hn0⟩ := integersConvertExactly n (by omega)
  obtain ⟨hfin1, hn1⟩ := integersConvertExactly (n + 1) hn
  have hrlo' := (fle_iff.1 hrlo).2.2
  have hrhi' := (fle_iff.1 hrhi).2.2
  have hilo' := (flt_iff.1 hilo).2.2
  have hihi' := (fle_iff.1 hihi).2.2
  rw [fvalue_posZero] at hrlo' hilo'
  rw [hn0] at hrhi'
  rw [fvalue_one64] at hihi'
  have hnum := isNaN_fadd_of_finite (free := free) hrfin hifin
  have hlo : fle posZero (fadd free ramp inc) = true :=
    fle_iff.2 ⟨isNaN_posZero, hnum, le_fadd hrfin hifin isNaN_posZero (by rw [fvalue_posZero]; omega)⟩
  have hhi : fle (fadd free ramp inc) (f64OfNat (n + 1)) = true := by
    refine fle_iff.2 ⟨hnum, isNaN_of_isFinite hfin1, fadd_le hrfin hifin (isNaN_of_isFinite hfin1) ?_⟩
    rw [hn1]
    push_cast
    linarith
  exact ⟨isFinite_of_bounds isFinite_posZero hfin1 hlo hhi, hlo, hhi⟩

/-- A step inside a segment keeps the runtime registers sound (40_envelope.md R116). -/
theorem envRuntimeSound_inside {v : F64} {ramp : F64} {free : Word} (h : EnvRuntimeSound r)
    (hstage : r.stage ≠ .idle) (hlast : r.remain ≠ 1) (hv : Amplitude v)
    (hadv : ramp = fadd free r.ramp r.inc) :
    EnvRuntimeSound { r with ramp := ramp, remain := r.remain - 1, amp := v, out := v } := by
  obtain ⟨-, hlive, ⟨hbase, -⟩, hsustain, hramping⟩ := h
  obtain ⟨hremain, hshape, ⟨hrfin, hrlo⟩, hifin, -⟩ := hlive hstage
  have hamps : EnvAmplitudesBounded
      { r with ramp := ramp, remain := r.remain - 1, amp := v, out := v } := ⟨hbase, hv, hv.1⟩
  have hleft : 1 ≤ (r.remain - 1).toNat := by bv_omega
  cases hs : rampingStage r.stage with
  | true =>
    obtain ⟨⟨hilo, hihi⟩, hrhi, -, hdelta⟩ := hramping hs
    have hsteps : 2 ^ 32 - (r.remain - 1).toNat = 2 ^ 32 - r.remain.toNat + 1 := by bv_omega
    refine envRuntimeSound_ramping hs hleft hshape ?_ ⟨hifin, hilo, hihi⟩
      (AtMost.iff_fle_fabs.2 hdelta) hamps
    simp only [hsteps, hadv]
    exact fadd_ramp_le (by omega) ⟨hrfin, hrlo, hrhi⟩ ⟨hifin, hilo, hihi⟩
  | false =>
    have hsus : r.stage = .sustain := by cases hst : r.stage <;> simp_all [rampingStage]
    obtain ⟨hr0, hi0, hshape1, hdelta0⟩ := hsustain hsus
    have hflat : ramp = posZero := by
      rw [hadv, hr0, hi0]
      exact fadd_posZero isFinite_posZero (by decide)
    exact envRuntimeSound_sustain hsus hleft ⟨hflat, hi0, hshape1, hdelta0⟩ hamps

/-- A ramping `env.step` keeps the runtime registers sound (40_envelope.md R116). -/
theorem envRuntimeSound_envRamp (hc : EnvConfigLegal c) (h : EnvRuntimeSound r)
    (hhold : envHolds c r = false) : EnvRuntimeSound (envRamp free c r) := by
  have hstage : r.stage ≠ .idle := by
    intro hidle
    simp [envHolds, hidle] at hhold
  have ⟨_, _, ⟨hbase, _⟩, _⟩ := h
  have hv : Amplitude (envSample free (fadd (free 0) r.ramp r.inc) r) := amplitude_envSample hbase
  by_cases hlast : r.remain = 1
  · rw [envRamp_end hlast]
    exact envRuntimeSound_enterNext hc hv hstage rfl rfl rfl rfl
  · rw [envRamp_inside hlast]
    exact envRuntimeSound_inside h hstage hlast hv rfl

/-- A holding `env.step` only returns the held amplitude (40_envelope.md R115). -/
theorem envRuntimeSound_hold (h : EnvRuntimeSound r) : EnvRuntimeSound { r with out := r.amp } := by
  obtain ⟨hidle, hlive, ⟨hbase, hamp, -⟩, hshaped⟩ := h
  exact ⟨hidle, hlive, ⟨hbase, hamp, hamp.1⟩, hshaped⟩

theorem envRuntimeSound_reset : EnvRuntimeSound State.reset.env :=
  envRuntimeSound_idle rfl ⟨rfl, rfl, rfl, rfl, rfl, rfl, rfl⟩ amplitude_posZero.1

/-- Every command keeps the envelope's runtime registers sound. -/
theorem envRuntimeSound_exec {j : Instr} {s t : State} (hx : exec j s = .next t)
    (hc : EnvConfigLegal s.envCfg) (h : EnvRuntimeSound s.env) : EnvRuntimeSound t.env := by
  cases j with
  | nop | clrerr | oscGen | oscReset => cases hx; exact h
  | envGateOn => cases hx; exact envRuntimeSound_gateOn hc h
  | envReset => cases hx; exact envRuntimeSound_reset
  | envGateOff =>
    cases hx
    unfold gateOff
    split
    · exact envRuntimeSound_enterRelease hc h
    · exact h
  | envStep =>
    rcases execEnvStep_cases s with ⟨-, hstep⟩ | ⟨hhold, hstep⟩ <;>
      cases hstep.symm.trans hx
    · exact envRuntimeSound_hold h
    · exact envRuntimeSound_envRamp hc h hhold

/-- Every effect of an input keeps the envelope's runtime registers sound. -/
theorem Effect.envRuntimeSound {i : Input} {s t : State} (he : Effect i s t)
    (hc : EnvConfigLegal s.envCfg) (h : EnvRuntimeSound s.env) : EnvRuntimeSound t.env := by
  cases he with
  | read | raise => exact h
  | store => rwa [writeReg_env]
  | command hx => exact envRuntimeSound_exec hx hc h
  | hardReset => exact envRuntimeSound_reset

end Commands

end Sys2Proof.Machine
end

section
/-! The oscillator's part of the invariant (10_state.md R58), and its samples: the phase folds into [0, 1), and
outside Triangle mode every intermediate result is a small number (60_exceptions.md R235). -/

namespace Sys2Proof.Machine

section Fold

variable {free : Word} {x : F64}

theorem fvalue_fracPart_lt_one (hx : fle one64 x = true) : fvalue (fracPart x) < unitsPerOne := by
  obtain ⟨-, -, hge⟩ := fle_iff.1 hx
  rw [fvalue_one64] at hge
  have hU := unitsPerOne_pos
  have hv : fvalue x = (unitsOf (fmag x) : Int) := by
    simp [fvalue, fsign_eq_false_of_pos (x := x) (by omega)]
  obtain ⟨b, hb⟩ := mod_unitsPerOne_representable (fmag x) (by omega)
  have hlt : unitsOf b < unitsPerOne := hb ▸ Nat.mod_lt _ hU
  have hmag : b < fmag one64 := unitsOf_lt_iff.1 (by rwa [unitsOf_one64])
  have hexact : roundUnits (unitsOf b) 1 = b :=
    roundUnits_exact_one (Nat.le_of_lt (Nat.lt_trans hmag (by decide)))
  rw [fracPart, hv, ← Int.natCast_mod, ← hb, fvalue_roundInt, if_neg (by omega), Int.natAbs_natCast,
    hexact]
  exact_mod_cast hlt

/-- A number not below zero folds into [0, 1) (41_oscillator.md R163). -/
theorem fold_lt_one (hx : isFinite x = true) (h0 : fle posZero x = true) :
    flt (fold free x) one64 = true := by
  rw [fold_of_finite hx]
  split
  next h => exact h.2
  next h =>
    have hnum := isNaN_of_isFinite hx
    have hge : fle one64 x = true := by
      refine fle_iff.2 ⟨isNaN_one64, hnum, ?_⟩
      by_contra hlt
      exact h ⟨h0, flt_iff.2 ⟨hnum, isNaN_one64, by omega⟩⟩
    refine flt_iff.2 ⟨isNaN_roundInt _ _, isNaN_one64, ?_⟩
    rw [fvalue_one64]
    exact fvalue_fracPart_lt_one hge

/-- The fold of a number that is no `-0.0` is no `-0.0` (41_oscillator.md R163). -/
theorem fsign_fold (hx : isFinite x = true) (h0 : 0 ≤ fvalue x → fsign x = false) :
    fsign (fold free x) = false := by
  rw [fold_of_finite hx]
  split
  next h =>
    have hval := (fle_iff.1 h.1).2.2
    exact h0 (by rwa [fvalue_posZero] at hval)
  next =>
    apply fsign_roundInt_false rfl
    have hval := (fle_iff.1 (inUnit_fracPart x).1).2.2
    rwa [fvalue_posZero] at hval

end Fold

section Phase

/-- (O1) of 10_state.md R58, with the sign of zero R163 fixes. -/
abbrev PhaseSound (x : F64) : Prop :=
  isFinite x = true ∧ fle posZero x = true ∧ flt x one64 = true ∧ fsign x = false

/-- (O2) of 10_state.md R58. -/
abbrev OscConfigLegal (c : OscConfig) : Prop :=
  isFinite c.freq = true ∧ isFinite c.phofs = true ∧ legalRate c.srate = true

variable {free : Word} {c : OscConfig}

theorem PhaseSound.inUnit {x : F64} (h : PhaseSound x) : InUnit x := by
  obtain ⟨-, hlo, hhi, -⟩ := h
  exact ⟨hlo, fle_of_flt hhi⟩

theorem phaseSound_posZero : PhaseSound posZero := by decide +kernel

/-- The increment is finite and no negative number: the rate is at least 1.0 (41_oscillator.md R161). -/
theorem phaseIncrement_forward (hc : OscConfigLegal c) :
    isFinite (phaseIncrement free c) = true ∧ fsign (phaseIncrement free c) = false := by
  obtain ⟨hfreq, -, hrate⟩ := hc
  obtain ⟨hfin, h0, hs, hge⟩ := legalRate_facts hrate
  have hfreq' : isFinite (fabs c.freq) = true := by rwa [isFinite_fabs]
  constructor
  · have hle : fmag (phaseIncrement free c) ≤ fmag c.freq := by
      apply fmag_fdiv_le hfreq' hfin h0
      rw [fmag_fabs]
      exact Nat.mul_le_mul_left _ hge
    exact isFinite_iff.2 (Nat.lt_of_le_of_lt hle (isFinite_iff.1 hfreq))
  · rw [phaseIncrement, fsign_fdiv hfreq' hfin h0, hs, fsign_fabs]
    rfl

/-- A phase and any finite number have a finite sum, which is no `-0.0` (41_oscillator.md R163). -/
theorem phase_fadd {phase x : F64} (hp : PhaseSound phase) (hx : isFinite x = true) :
    isFinite (fadd free phase x) = true ∧
      (0 ≤ fvalue (fadd free phase x) → fsign (fadd free phase x) = false) := by
  have ⟨hpfin, _, _, hsign⟩ := hp
  have hfin : isFinite (fadd free phase x) = true := by
    rw [fadd_comm_of_finite hpfin hx]
    exact isFinite_fadd_small hx hpfin (AtMost.iff_fle_fabs.1 (AtMost.of_inUnit hp.inUnit))
  exact ⟨hfin, fsign_fadd_false hsign (isNaN_of_isFinite hfin)⟩

/-- `osc.gen` leaves a phase in [0, 1) (41_oscillator.md R163). -/
theorem phaseSound_oscSample {free : Nat → Word} {r : OscRuntime} (hp : PhaseSound r.phase)
    (hc : OscConfigLegal c) : PhaseSound (oscSample free c r).phase := by
  have ⟨hpfin, _, _, hsign⟩ := hp
  obtain ⟨hphase, -, -⟩ := oscSample_cases free c r
  obtain ⟨hdt, hdts⟩ := phaseIncrement_forward (free := free 0) hc
  obtain ⟨hsum, hsigned⟩ := phase_fadd (free := free 4) hp hdt
  have h0 : fle posZero (fadd (free 4) r.phase (phaseIncrement (free 0) c)) = true := by
    refine fle_iff.2 ⟨isNaN_posZero, isNaN_of_isFinite hsum, le_fadd hpfin hdt isNaN_posZero ?_⟩
    rw [fvalue_posZero]
    exact Int.add_nonneg (fvalue_nonneg_of_fsign hsign) (fvalue_nonneg_of_fsign hdts)
  have hunit := inUnit_fold (free := free 3) hsum
  rw [hphase]
  exact ⟨isFinite_of_inUnit hunit, hunit.1, fold_lt_one hsum h0, fsign_fold hsum hsigned⟩

theorem fsign_instantPhase {free : Nat → Word} {r : OscRuntime} (hp : PhaseSound r.phase)
    (hc : OscConfigLegal c) : fsign (instantPhase free c r) = false := by
  obtain ⟨-, hphofs, -⟩ := hc
  obtain ⟨hsum, hsigned⟩ := phase_fadd (free := free 1) hp hphofs
  exact fsign_fold hsum hsigned

/-- Settles O47, by what the fold does to the sum of a phase and a finite number. -/
theorem phaseStaysInRange : Obligations.PhaseStaysInRange := by
  intro s free hs
  have ⟨hp, hc⟩ := hs
  exact ⟨⟨_, rfl, phaseSound_oscSample hp hc⟩, inUnit_instantPhase free hs, fsign_instantPhase hp hc⟩

/-- Every command keeps the phase in [0, 1). -/
theorem phaseSound_exec {j : Instr} {s t : State} (hx : exec j s = .next t)
    (hc : OscConfigLegal s.oscCfg) (hp : PhaseSound s.osc.phase) : PhaseSound t.osc.phase := by
  rcases exec_cases hx with rfl | ⟨-, rfl⟩ | ⟨_, _, rfl⟩ | ⟨hj, -⟩
  · exact hp
  · exact hp
  · exact hp
  · simp only [List.mem_cons, List.not_mem_nil, or_false] at hj
    rcases hj with rfl | rfl <;> cases hx
    · exact phaseSound_oscSample hp hc
    · exact phaseSound_posZero

/-- Every effect of an input keeps the phase in [0, 1). -/
theorem Effect.phaseSound {i : Input} {s t : State} (he : Effect i s t) (hc : OscConfigLegal s.oscCfg)
    (hp : PhaseSound s.osc.phase) : PhaseSound t.osc.phase := by
  cases he with
  | read | raise => exact hp
  | store => rwa [writeReg_osc]
  | hardReset => exact phaseSound_posZero
  | command hx => exact phaseSound_exec hx hc hp

end Phase

section Samples

variable {t dt : F64}

theorem atMost_one64 : AtMost 1 one64 := AtMost.of_inUnit inUnit_one64

theorem atMost_negOne64 : AtMost 1 negOne64 := atMost_one64.fneg

/-- A number that some number not below zero is less than is no zero. -/
theorem isZero_of_pos {x : F64} (h : 0 < fvalue x) : isZero x = false := by
  by_contra hz
  have := isZero_iff_fvalue.1 (by simpa using hz)
  omega

/-- A quotient of a dividend whose value lies within the divisor's, which is positive. -/
theorem atMost_fdiv_of_fvalue {a b : F64} {free : Word} (ha : isFinite a = true)
    (hb : isFinite b = true) (hpos : 0 < fvalue b) (h : (fvalue a).natAbs ≤ (fvalue b).natAbs) :
    AtMost 1 (fdiv free a b) := by
  rw [natAbs_fvalue, natAbs_fvalue] at h
  exact AtMost.fdiv ha hb (isZero_of_pos hpos) h

/-- The quotient of the first window of `polyBlep` (41_oscillator.md R164). -/
theorem atMost_window_start {free : Word} (ht : InUnit t) (hdt : isFinite dt = true)
    (h : flt t dt = true) : AtMost 1 (fdiv free t dt) := by
  have hlt := (flt_iff.1 h).2.2
  have h0 := (fle_iff.1 ht.1).2.2
  rw [fvalue_posZero] at h0
  exact atMost_fdiv_of_fvalue (isFinite_of_inUnit ht) hdt (by omega) (by omega)

/-- The quotient of the second window of `polyBlep` (41_oscillator.md R164). Rounding is monotone, so that
`1.0 - dt < t` of the rounded difference says that the exact `1.0 - t` is below `dt`; then so is the rounded
one, up to equality. -/
theorem atMost_window_end {free free' free'' : Word} (ht : InUnit t) (hdt : isFinite dt = true)
    (h : flt (fsub free one64 dt) t = true) : AtMost 1 (fdiv free' (fsub free'' t one64) dt) := by
  have htf := isFinite_of_inUnit ht
  have hlt := (flt_iff.1 h).2.2
  have h1 := (fle_iff.1 ht.2).2.2
  rw [fvalue_one64] at h1
  have hexact : fvalue one64 - fvalue dt < fvalue t := by
    by_contra hge
    have := le_fvalue_roundInt (zn := fsign one64 && !fsign dt) (isNaN_of_isFinite htf) (not_lt.1 hge)
    rw [← fsub_of_finite (free := free) isFinite_one64 hdt] at this
    omega
  rw [fvalue_one64] at hexact
  have hup : fvalue (fsub free'' t one64) ≤ fvalue posZero := by
    rw [fsub_of_finite htf isFinite_one64]
    exact fvalue_roundInt_le isNaN_posZero (by rw [fvalue_posZero, fvalue_one64]; omega)
  have hlow : fvalue (fneg dt) ≤ fvalue (fsub free'' t one64) := by
    rw [fsub_of_finite htf isFinite_one64]
    apply le_fvalue_roundInt (isNaN_of_isFinite (by rwa [isFinite_fneg]))
    rw [fvalue_fneg, fvalue_one64]
    omega
  rw [fvalue_posZero] at hup
  rw [fvalue_fneg] at hlow
  exact atMost_fdiv_of_fvalue ((AtMost.fsub_of_inUnit ht inUnit_one64).isFinite (by decide)) hdt
    (by omega) (by omega)

/-- A correction is a small number, for every finite increment (41_oscillator.md R164). -/
theorem atMost_polyBlep {free : Nat → Word} (ht : InUnit t) (hdt : isFinite dt = true) :
    AtMost 4 (polyBlep free t dt) := by
  unfold polyBlep
  split
  next h =>
    have hu : AtMost 1 (fdiv (free 0) t dt) := atMost_window_start ht hdt h
    have huu := hu.fmul (free := free 4) hu (by decide) (by decide) (by decide)
    exact ((hu.fadd hu (by decide)).fsub huu (by decide)).fsub atMost_one64 (by decide)
  split
  next h =>
    have hu : AtMost 1 (fdiv (free 0) (fsub (free 1) t one64) dt) := atMost_window_end ht hdt h
    have huu := hu.fmul (free := free 6) hu (by decide) (by decide) (by decide)
    exact ((huu.fadd hu (by decide)).fadd hu (by decide)).fadd atMost_one64 (by decide)
  next => exact (AtMost.of_inUnit amplitude_posZero.1).mono (by decide)

/-- A Saw sample is a small number (41_oscillator.md R166). -/
theorem atMost_sawWave {free : Nat → Word} (ht : InUnit t) (hdt : isFinite dt = true) :
    AtMost 7 (sawWave free t dt) := by
  have htwo : AtMost 2 two64 := by unfold AtMost; decide +kernel
  have htwice := htwo.fmul (free := free 2) (AtMost.of_inUnit ht) (by decide) (by decide) (by decide)
  exact (htwice.fsub atMost_one64 (by decide)).fsub (atMost_polyBlep ht hdt) (by decide)

/-- A Square sample is a small number (41_oscillator.md R167). -/
theorem atMost_squareWave {free : Nat → Word} (ht : InUnit t) (hdt : isFinite dt = true) :
    AtMost 9 (squareWave free t dt) := by
  have hnaive : AtMost 1 (if flt t half64 then one64 else negOne64) := by
    split
    · exact atMost_one64
    · exact atMost_negOne64
  have hhalf : AtMost 1 half64 := AtMost.of_inUnit (by decide +kernel)
  have hshift : isFinite (fadd (free 3) t half64) = true :=
    ((AtMost.of_inUnit ht).fadd hhalf (by decide)).isFinite (by decide)
  exact (hnaive.fadd (atMost_polyBlep ht hdt) (by decide)).fsub
    (atMost_polyBlep (inUnit_fold hshift) hdt) (by decide)

/-- Outside Triangle mode the sample is finite (60_exceptions.md R235). -/
theorem isFinite_oscSample_out {free : Nat → Word} {c : OscConfig} {r : OscRuntime}
    (ht : InUnit (instantPhase (freeFrom free 1) c r))
    (hdt : isFinite (phaseIncrement (free 0) c) = true) (hmode : c.mode ≠ .triangle) :
    isFinite (oscSample free c r).out = true := by
  cases hm : c.mode with
  | sine =>
    rw [oscSample_out_sine hm]
    exact (sinLaws_sinFn.s2 _ (isFinite_twoPi_fmul ht)).1
  | saw =>
    simp only [oscSample, hm]
    exact (atMost_sawWave ht hdt).isFinite (by decide)
  | square =>
    simp only [oscSample, hm]
    exact (atMost_squareWave ht hdt).isFinite (by decide)
  | triangle => exact absurd hm hmode

/-- Settles O52: law S2 bounds the Sine, and each term of a Saw or a Square is a small number. -/
theorem onlyTriangleLeavesTheFiniteNumbers : Obligations.OnlyTriangleLeavesTheFiniteNumbers := by
  intro s hs hmode
  obtain ⟨-, hlast, -⟩ := oscSample_cases (freeWords s) s.oscCfg s.osc
  obtain ⟨hdt, -⟩ := phaseIncrement_forward (free := freeWords s 0) hs.2
  exact ⟨_, rfl, isFinite_oscSample_out (inUnit_instantPhase _ hs) hdt hmode, hlast hmode⟩

end Samples

end Sys2Proof.Machine
end

section
/-! The invariant of CORE (10_state.md R24, R25, R57, R58): it holds after hard reset and every input keeps it,
so it holds in every reachable state. -/

namespace Sys2Proof.Machine

section Configuration

theorem setWidth_ne_zero_of_legalDuration {v : Word} (h : legalDuration v = true) :
    v.setWidth 32 ≠ 0 := by
  simp only [legalDuration, Bool.and_eq_true, bne_iff_ne] at h
  rw [BitVec.setWidth_eq_extractLsb' (by decide)]
  exact h.2

/-- A legal write keeps the envelope's configuration legal, (E5) of 10_state.md R57. -/
theorem envConfigLegal_writeReg {r : Reg} {v : Word} {s : State} (hv : legalValue r v = true)
    (h : EnvConfigLegal s.envCfg) : EnvConfigLegal (writeReg r v s).envCfg := by
  obtain ⟨⟨hatk, hdec, hsus, hrel⟩, ⟨hatkS, hdecS, hrelS⟩, hlevel⟩ := h
  cases r
  case envAtkDur =>
    exact ⟨⟨setWidth_ne_zero_of_legalDuration hv, hdec, hsus, hrel⟩, ⟨hatkS, hdecS, hrelS⟩, hlevel⟩
  case envDecDur =>
    exact ⟨⟨hatk, setWidth_ne_zero_of_legalDuration hv, hsus, hrel⟩, ⟨hatkS, hdecS, hrelS⟩, hlevel⟩
  case envSusDur =>
    exact ⟨⟨hatk, hdec, setWidth_ne_zero_of_legalDuration hv, hrel⟩, ⟨hatkS, hdecS, hrelS⟩, hlevel⟩
  case envRelDur =>
    exact ⟨⟨hatk, hdec, hsus, setWidth_ne_zero_of_legalDuration hv⟩, ⟨hatkS, hdecS, hrelS⟩, hlevel⟩
  case envAtkShape => exact ⟨⟨hatk, hdec, hsus, hrel⟩, ⟨hv, hdecS, hrelS⟩, hlevel⟩
  case envDecShape => exact ⟨⟨hatk, hdec, hsus, hrel⟩, ⟨hatkS, hv, hrelS⟩, hlevel⟩
  case envRelShape => exact ⟨⟨hatk, hdec, hsus, hrel⟩, ⟨hatkS, hdecS, hv⟩, hlevel⟩
  case envDecLevel => exact ⟨⟨hatk, hdec, hsus, hrel⟩, ⟨hatkS, hdecS, hrelS⟩, hv⟩
  all_goals exact ⟨⟨hatk, hdec, hsus, hrel⟩, ⟨hatkS, hdecS, hrelS⟩, hlevel⟩

/-- A legal write keeps the oscillator's configuration legal, (O2) of 10_state.md R58. -/
theorem oscConfigLegal_writeReg {r : Reg} {v : Word} {s : State} (hv : legalValue r v = true)
    (h : OscConfigLegal s.oscCfg) : OscConfigLegal (writeReg r v s).oscCfg := by
  obtain ⟨hfreq, hphofs, hrate⟩ := h
  cases r
  case oscFreq => exact ⟨hv, hphofs, hrate⟩
  case oscPhofs => exact ⟨hfreq, hv, hrate⟩
  case oscSrate => exact ⟨hfreq, hphofs, hv⟩
  all_goals exact ⟨hfreq, hphofs, hrate⟩

theorem configLegal_reset :
    EnvConfigLegal State.reset.envCfg ∧ OscConfigLegal State.reset.oscCfg := by decide +kernel

/-- Every effect of an input keeps the configuration legal. -/
theorem Effect.configLegal {i : Input} {s t : State} (he : Effect i s t)
    (henv : EnvConfigLegal s.envCfg) (hosc : OscConfigLegal s.oscCfg) :
    EnvConfigLegal t.envCfg ∧ OscConfigLegal t.oscCfg := by
  cases he with
  | read | raise => exact ⟨henv, hosc⟩
  | store hv => exact ⟨envConfigLegal_writeReg hv henv, oscConfigLegal_writeReg hv hosc⟩
  | command hx =>
    obtain ⟨hcfg, hcfg'⟩ := exec_config hx
    rw [hcfg, hcfg']
    exact ⟨henv, hosc⟩
  | hardReset => exact configLegal_reset

end Configuration

section Core

/-- The invariant by its parts: the envelope's runtime registers and configuration, the oscillator's, and the
error record. -/
theorem coreInvariant_iff {s : State} : CoreInvariant s ↔
    EnvRuntimeSound s.env ∧ EnvConfigLegal s.envCfg ∧
      (PhaseSound s.osc.phase ∧ OscConfigLegal s.oscCfg) ∧ ErrorRecordSound s.err :=
  ⟨fun ⟨⟨hidle, hlive, hamp, hcfg⟩, hshaped, hosc, herr⟩ =>
      ⟨⟨hidle, hlive, hamp, hshaped⟩, hcfg, hosc, herr⟩,
    fun ⟨⟨hidle, hlive, hamp, hshaped⟩, hcfg, hosc, herr⟩ =>
      ⟨⟨hidle, hlive, hamp, hcfg⟩, hshaped, hosc, herr⟩⟩

theorem Effect.coreInvariant {i : Input} {s t : State} (he : Effect i s t) (h : CoreInvariant s) :
    CoreInvariant t := by
  obtain ⟨henv, hcfg, ⟨hphase, hcfg'⟩, herr⟩ := coreInvariant_iff.1 h
  obtain ⟨hlegal, hlegal'⟩ := he.configLegal hcfg hcfg'
  exact coreInvariant_iff.2 ⟨he.envRuntimeSound hcfg henv, hlegal, ⟨he.phaseSound hcfg' hphase, hlegal'⟩,
    he.errorRecordSound herr⟩

/-- The invariant speaks of registers alone: a response changes nothing of it. -/
theorem coreInvariant_respond {w : Option Word} {s : State} (h : CoreInvariant s) :
    CoreInvariant (respond w s) := h

theorem coreInvariant_withInputs {inputs : List Input} {s : State} (h : CoreInvariant s) :
    CoreInvariant (withInputs inputs s) := h

/-- Every input keeps the invariant. -/
theorem coreInvariant_performInput {i : Input} {s t : State} (hp : performInput i s = .next t)
    (h : CoreInvariant s) : CoreInvariant t := by
  obtain ⟨w, he⟩ := performInput_effect hp
  exact he.coreInvariant (coreInvariant_respond h)

/-- Settles O59: a step is nothing or one input, and every effect of an input keeps each part of the
invariant. -/
theorem everyStepKeepsTheInvariant : Obligations.EveryStepKeepsTheInvariant := by
  intro s t h hstep
  rcases step_cases s with ⟨-, hs⟩ | ⟨i, rest, -, hs⟩ <;> rw [hs] at hstep
  · cases hstep
    exact h
  · exact coreInvariant_performInput hstep (coreInvariant_withInputs h)

/-- Settles O36: an `env.step` and every other input keep the invariant, which bounds the amplitudes. -/
theorem envelopeOutputStaysInUnit : Obligations.EnvelopeOutputStaysInUnit := by
  have bounded {t : State} (h : CoreInvariant t) : EnvAmplitudesBounded t.env := by
    obtain ⟨⟨-, -, hamp, -⟩, -⟩ := h
    exact hamp
  refine ⟨fun s h => ⟨_, rfl, ?_⟩, fun i s t h hp => bounded (coreInvariant_performInput hp h)⟩
  exact bounded (Effect.command (j := .envStep) rfl |>.coreInvariant h)

/-- After hard reset the invariant holds (70_reset_and_hazards.md R260). -/
theorem coreInvariant_reset : CoreInvariant State.reset :=
  coreInvariant_iff.2 ⟨envRuntimeSound_reset, configLegal_reset.1,
    ⟨phaseSound_posZero, configLegal_reset.2⟩, errorRecordSound_cleared⟩

/-- Inputs performed one after another keep the invariant. -/
theorem coreInvariant_performAll {inputs : List Input} {s t : State}
    (hp : performAll inputs s = .next t) (h : CoreInvariant s) : CoreInvariant t := by
  induction inputs generalizing s with
  | nil => cases hp; exact h
  | cons i rest ih =>
    unfold performAll at hp
    split at hp
    next u hu => exact ih hp (coreInvariant_performInput hu h)
    next => cases hp
    next => cases hp

/-- Settles O60: the invariant holds at reset and every input keeps it. -/
theorem reachableStatesMeetTheInvariants : Obligations.ReachableStatesMeetTheInvariants := by
  intro inputs t hp
  obtain ⟨henv, -, hosc, -⟩ := coreInvariant_performAll hp coreInvariant_reset
  have hstage (x : Stage) : (stageWord x).toNat ≤ 4 := by cases x <;> decide
  have hmode (x : Waveform) : (modeWord x).toNat ≤ 3 := by cases x <;> decide
  exact ⟨henv, hosc, hstage t.env.stage, hmode t.oscCfg.mode⟩

end Core

end Sys2Proof.Machine
end

section
/-! The port (20_memory.md R70 to R82): what a read and a write do, that every input completes and passes over what
is still pending, and what a platform adds to it: a byte bridge, and more than one CORE. -/

namespace Sys2Proof.Machine

section Reads

theorem portRead_of_regAt {idx : RegIndex} {r : Reg} (h : regAt idx = some r) (s : State) :
    portRead idx s = respond (some (readReg r s)) s := by simp [portRead, h]

theorem portRead_of_unmapped {idx : RegIndex} (h : regAt idx = none) (s : State) :
    portRead idx s = respond (some 0x0) (raiseError .access (readInfo idx) s) := by simp [portRead, h]

/-- `ENV_GATED` reads 0 or 1 (10_state.md R26). -/
theorem setWidth_ofBool (b : Bool) : (BitVec.ofBool b).setWidth 64 = if b then 1#64 else 0#64 := by
  cases b <;> rfl

/-- Settles O7, by whether the index is mapped; the last clause is `readReg`, register by register. -/
theorem portReadReturnsTheRegister : Obligations.PortReadReturnsTheRegister := by
  refine ⟨fun idx s => ⟨fun r hr _ => ?_, fun hcmd => ?_, fun hnone => ?_⟩, fun s => ?_⟩
  · exact congrArg _ (portRead_of_regAt hr s)
  · exact congrArg _ (portRead_of_regAt hcmd s)
  · exact congrArg _ (portRead_of_unmapped hnone s)
  · simp only [allRegs, List.map_cons, List.map_nil, readReg, setWidth_ofBool]
    rfl

end Reads

section Writes

theorem writeIndex_of_no_write {idx : RegIndex} (h : kindAt idx = none ∨ kindAt idx = some .ro)
    (v : Word) (s : State) : writeIndex idx v s = .next (raiseError .access (writeInfo idx) s) := by
  cases hr : regAt idx with
  | none => simp [writeIndex, hr]
  | some r =>
    have hk : regKind r = .ro := by simpa [kindAt, hr] using h
    simp [writeIndex, hr, hk]

theorem writeIndex_of_wo {idx : RegIndex} (h : kindAt idx = some .wo) (v : Word) (s : State) :
    writeIndex idx v s = executeWord v s := by
  obtain ⟨r, hr, hk⟩ := Option.map_eq_some_iff.1 h
  simp [writeIndex, hr, hk]

theorem executeWord_of_illegal {v w : Word} (h : decode v = .illegal w) (s : State) :
    executeWord v s = .next (raiseError .command w s) := by simp [executeWord, h]

theorem writeIndex_of_legal {r : Reg} {v : Word} (hk : regKind r = .rw) (hv : legalValue r v = true)
    (s : State) : writeIndex (regIndex r) v s = .next (writeReg r v s) := by simp [writeIndex_rw hk, hv]

theorem writeIndex_of_rejected {r : Reg} {v : Word} (hk : regKind r = .rw)
    (hv : legalValue r v = false) (s : State) :
    writeIndex (regIndex r) v s = .next (raiseError .value (writeInfo (regIndex r)) s) := by
  simp [writeIndex_rw hk, hv]

theorem writeReg_respond (r : Reg) (v : Word) (w : Option Word) (s : State) :
    writeReg r v (respond w s) = respond w (writeReg r v s) := by cases r <;> rfl

/-- Settles O8: a write is `writeIndex` once the response is cleared, and that goes by the access kind. -/
theorem portWriteFollowsTheAccessKind : Obligations.PortWriteFollowsTheAccessKind := by
  intro idx v s
  have hperform : performInput (.write idx v) s = writeIndex idx v (respond none s) := rfl
  rw [hperform]
  refine ⟨fun hk => ?_, fun hk i hdec => ?_, fun hk hdec => ?_, fun r hr hk hv => ?_, fun r hr hk hv => ?_⟩
  · exact writeIndex_of_no_write hk v _
  · rw [writeIndex_of_wo hk, executeWord_of_decode hdec]
  · exact (writeIndex_of_wo hk v _).trans (executeWord_of_illegal hdec _)
  · rw [← regIndex_of_regAt hr, writeIndex_of_legal hk hv, writeReg_respond]
  · rw [← regIndex_of_regAt hr]
    exact writeIndex_of_rejected hk hv _

@[simp] theorem writeReg_port (r : Reg) (v : Word) (s : State) : (writeReg r v s).port = s.port := by
  cases r <;> rfl

@[simp] theorem writeReg_draws (r : Reg) (v : Word) (s : State) : (writeReg r v s).draws = s.draws := by
  cases r <;> rfl

/-- A legal duration fits the 32 bits that are kept of it (10_state.md R27). -/
theorem setWidth_setWidth_of_legalDuration {v : Word} (h : legalDuration v = true) :
    (v.setWidth 32).setWidth 64 = v := by
  simp only [legalDuration, Bool.and_eq_true, beq_iff_eq] at h
  obtain ⟨hhigh, -⟩ := h
  have hquot : v.toNat / 2 ^ 32 % 2 ^ 32 = 0 := by
    simpa [← BitVec.toNat_inj, Nat.shiftRight_eq_div_pow] using hhigh
  bv_omega

/-- A legal gate bit is kept whole (10_state.md R26). -/
theorem setWidth_ofBool_getLsbD {v : Word} (h : v = 0x0 ∨ v = 0x1) :
    (BitVec.ofBool (v.getLsbD 0)).setWidth 64 = v := by
  rcases h with rfl | rfl <;> rfl

/-- The four words that name a waveform name it back (10_state.md R44). -/
theorem modeWord_modeOfWord {v : Word} (h : v.ule 0x3 = true) : modeWord (modeOfWord v) = v := by
  have hcases : v = 0 ∨ v = 1 ∨ v = 2 ∨ v = 3 := by simp only [BitVec.ule_iff_le] at h; bv_omega
  rcases hcases with rfl | rfl | rfl | rfl <;> rfl

/-- A legal write reads back bit for bit (20_memory.md R72). -/
theorem readReg_writeReg_same {r : Reg} {v : Word} (hv : legalValue r v = true) (s : State) :
    readReg r (writeReg r v s) = v := by
  cases r with
  | envGated => exact setWidth_ofBool_getLsbD (by simpa [legalValue] using hv)
  | envAtkDur | envDecDur | envSusDur | envRelDur => exact setWidth_setWidth_of_legalDuration hv
  | oscMode => exact modeWord_modeOfWord hv
  | envAtkShape | envDecShape | envRelShape | envDecLevel | oscFreq | oscPhofs | oscSrate => rfl
  | cmd | status | errInfo | envState | envRemain | envRamp | envInc | envDelta | envShape | envBase |
    envAmp | envOut | oscPhase | oscLast | oscOut => cases hv

/-- A write leaves the words of all other registers: those of the record and of the runtime whole, and in a
configuration it replaces its own field alone (20_memory.md R72). -/
theorem readReg_writeReg_of_ne {r r' : Reg} (hne : r' ≠ r) (v : Word) (s : State) :
    readReg r' (writeReg r v s) = readReg r' s := by
  cases r' with
  | cmd | status | errInfo | envState | envRemain | envRamp | envInc | envDelta | envShape | envBase |
    envAmp | envOut | oscPhase | oscLast | oscOut => simp [readReg]
  | envGated | envAtkDur | envAtkShape | envDecDur | envDecShape | envDecLevel | envSusDur | envRelDur |
    envRelShape | oscMode | oscFreq | oscPhofs | oscSrate =>
    cases r <;> simp [readReg, writeReg] at hne ⊢

/-- Settles O9, by the word of the written register and those of the others. -/
theorem legalWriteChangesOnlyItsRegister : Obligations.LegalWriteChangesOnlyItsRegister :=
  fun r v s _ hv => ⟨readReg_writeReg_same hv s, fun _ hne => readReg_writeReg_of_ne hne v s,
    writeReg_port r v s, writeReg_draws r v s⟩

end Writes

section Order

theorem writeReg_withInputs (r : Reg) (v : Word) (is : List Input) (s : State) :
    writeReg r v (withInputs is s) = withInputs is (writeReg r v s) := by cases r <;> rfl

theorem readReg_withInputs (r : Reg) (is : List Input) (s : State) :
    readReg r (withInputs is s) = readReg r s := by cases r <;> rfl

/-- Every command completes (60_exceptions.md R235). -/
theorem exec_completes (j : Instr) (s : State) : ∃ t, exec j s = .next t := by
  cases j <;> exact ⟨_, rfl⟩

/-- A command neither reads nor changes what is still pending. -/
theorem exec_withInputs {j : Instr} {s t : State} (h : exec j s = .next t) (is : List Input) :
    exec j (withInputs is s) = .next (withInputs is t) := by
  cases j with
  | nop | clrerr | envGateOn | envReset | oscGen | oscReset => cases h; rfl
  | envGateOff | envStep =>
    cases h
    simp only [exec, execEnvGateOff, gateOff, execEnvStep, apply_ite (withInputs is)]
    rfl

theorem executeWord_withInputs (v : Word) (s : State) :
    ∃ t, ∀ is, executeWord v (withInputs is s) = .next (withInputs is t) := by
  rcases executeWord_cases v s with ⟨j, hdec, -⟩ | ⟨hdec, -⟩
  · obtain ⟨t, ht⟩ := exec_completes j s
    exact ⟨t, fun is => by rw [executeWord_of_decode hdec, exec_withInputs ht]⟩
  · exact ⟨raiseError .command v s, fun _ => executeWord_of_illegal hdec _⟩

theorem writeIndex_withInputs (idx : RegIndex) (v : Word) (s : State) :
    ∃ t, ∀ is, writeIndex idx v (withInputs is s) = .next (withInputs is t) := by
  rcases writeIndex_cases idx v s with ⟨hro, -⟩ | ⟨rfl, -⟩ | ⟨r, hr, hk, hv, -⟩ | ⟨r, hr, hk, hv, -⟩
  · exact ⟨raiseError .access (writeInfo idx) s,
      fun _ => writeIndex_of_no_write (kindAt_of_forall_ro hro) v _⟩
  · simpa only [writeIndex_of_wo (kindAt_regIndex .cmd)] using executeWord_withInputs v s
  · rw [← regIndex_of_regAt hr]
    exact ⟨writeReg r v s, fun is => by rw [writeIndex_of_legal hk hv, writeReg_withInputs]⟩
  · rw [← regIndex_of_regAt hr]
    exact ⟨raiseError .value (writeInfo (regIndex r)) s, fun _ => writeIndex_of_rejected hk hv _⟩

theorem portRead_withInputs (idx : RegIndex) (s : State) :
    ∃ t, ∀ is, portRead idx (withInputs is s) = withInputs is t := by
  cases hr : regAt idx with
  | none =>
    exact ⟨respond (some 0x0) (raiseError .access (readInfo idx) s), fun _ => portRead_of_unmapped hr _⟩
  | some r =>
    refine ⟨respond (some (readReg r s)) s, fun is => ?_⟩
    rw [portRead_of_regAt hr, readReg_withInputs]
    rfl

/-- Every input completes (60_exceptions.md R238), and neither reads nor changes what is still pending (log 1). -/
theorem performInput_withInputs (i : Input) (s : State) :
    ∃ t, ∀ is, performInput i (withInputs is s) = .next (withInputs is t) := by
  cases i with
  | read idx =>
    obtain ⟨t, ht⟩ := portRead_withInputs idx s
    exact ⟨t, fun is => congrArg _ (ht is)⟩
  | write idx v => exact writeIndex_withInputs idx v (respond none s)
  | hardReset => exact ⟨hardReset s, fun _ => rfl⟩

/-- Settles O12: the step's one input completes and leaves the rest pending. -/
theorem everyStepCompletes : Obligations.EveryStepCompletes := by
  intro s
  rcases step_cases s with ⟨hnone, hstep⟩ | ⟨i, rest, hsome, hstep⟩
  · exact ⟨s, hstep, by rw [hnone]; rfl⟩
  · obtain ⟨t, ht⟩ := performInput_withInputs i s
    exact ⟨withInputs rest t, by rw [hstep, ht], by rw [hsome]; rfl⟩

theorem run_succ_of_step {s t : State} (h : step s = .next t) (n : Nat) :
    Sys2Proof.core.run (n + 1) s = Sys2Proof.core.run n t := by
  have hcore : Sys2Proof.core.step s = .next t := h
  simp only [Host.Core.run, hcore]

theorem performAll_cons_of_performInput {i : Input} {s t : State} (h : performInput i s = .next t)
    (rest : List Input) : performAll (i :: rest) s = performAll rest t := by simp [performAll, h]

/-- Settles O11, by induction over the inputs the run performs: the first one's step is its transaction, with
the others pending or not. -/
theorem inputsArePerformedInPortOrder : Obligations.InputsArePerformedInPortOrder := by
  intro now later s
  induction now generalizing s with
  | nil => rfl
  | cons i rest ih =>
    obtain ⟨t, ht⟩ := performInput_withInputs i s
    have hstep : step (withInputs (i :: rest ++ later) s) = .next (withInputs (rest ++ later) t) :=
      ht (rest ++ later)
    rw [performAll_cons_of_performInput (ht later), ← ih t]
    exact run_succ_of_step hstep rest.length

end Order

section Bridge

theorem byteOf_getElem (w : Word) (k j : Fin 8) : (byteOf w k)[j] = w.getLsbD (8 * k.val + j.val) := by
  simp [byteOf]

/-- The bytes of a word, put together, are the word (20_memory.md R73). -/
theorem wordOfBytes_byteOf (w : Word) :
    wordOfBytes (byteOf w 0) (byteOf w 1) (byteOf w 2) (byteOf w 3) (byteOf w 4) (byteOf w 5)
      (byteOf w 6) (byteOf w 7) = w := by
  simp only [wordOfBytes, byteOf]
  iterate 7 rw [BitVec.extractLsb'_append_extractLsb'_eq_extractLsb' (by rfl)]
  exact BitVec.extractLsb'_eq_self

theorem bridgeIndex_bridgeAddr (idx : RegIndex) (k : Fin 8) :
    bridgeIndex (bridgeAddr idx k) = if k = 0 then some idx else none := by
  have hidx : idx.toNat < 64 := idx.isLt
  by_cases hk : k = 0
  · subst hk
    have haddr : bridgeAddr idx 0 = 8 * idx.toNat := rfl
    have hwhole : 8 * idx.toNat % 8 = 0 ∧ 8 * idx.toNat < 512 := by omega
    simp [bridgeIndex, haddr, hwhole]
  · have hoff : ¬ (bridgeAddr idx k % 8 = 0 ∧ bridgeAddr idx k < 512) := by
      simp only [bridgeAddr]
      omega
    rw [bridgeIndex, if_neg hoff, if_neg hk]

/-- Settles O14, by the bytes of a word and the register an address names. -/
theorem bridgeIsLittleEndian : Obligations.BridgeIsLittleEndian := by
  refine ⟨byteOf_getElem, wordOfBytes_byteOf, fun idx k => ⟨rfl, bridgeIndex_bridgeAddr idx k⟩,
    fun idx => ?_, fun idx w => ?_⟩
  · rw [bridgeRead, bridgeIndex_bridgeAddr]
    rfl
  · rw [bridgeWrite, bridgeIndex_bridgeAddr, wordOfBytes_byteOf]
    rfl

end Bridge

section Platform

theorem platformStep_of_step {k : Nat} {p : Platform} {s t : State} (hk : p.cores[k]? = some s)
    (h : step s = .next t) : platformStep k p = .next { cores := p.cores.set k t } := by
  simp [platformStep, hk, h]

theorem platformStep_of_none {k : Nat} {p : Platform} (hk : p.cores[k]? = none) :
    platformStep k p = .next p := by simp [platformStep, hk]

/-- Settles O15: a platform's step sets the one CORE it names to the state of its own step. -/
theorem instancesNeverInteract : Obligations.InstancesNeverInteract := by
  intro k p
  cases hk : p.cores[k]? with
  | none => exact ⟨p, platformStep_of_none hk, rfl, fun _ _ => rfl, by simp⟩
  | some s =>
    obtain ⟨t, hstep, -⟩ := everyStepCompletes s
    obtain ⟨hlt, -⟩ := List.getElem?_eq_some_iff.1 hk
    refine ⟨_, platformStep_of_step hk hstep, List.length_set, fun j hj => ?_, fun s' hs => ?_⟩
    · exact List.getElem?_set_ne hj.symm
    · cases hs
      exact ⟨t, hstep, List.getElem?_set_self hlt⟩

end Platform

end Sys2Proof.Machine
end

section
/-! The command words (30_encoding.md R91 to R97): a word with legal fields is its format put together again, so
the legal words are those of the eight commands, and any other only raises a command error. -/

namespace Sys2Proof.Machine

section Formats

/-- Format C0 has no bits but `OP` and `Z` (30_encoding.md R91). -/
theorem eq_formatC0_of_zeroC0 {w : Word} (hz : zeroC0 w = true) : w = formatC0 (opField w) := by
  have hzero : w.extractLsb' 8 56 = 0 := by simpa [zeroC0] using hz
  calc w = w.extractLsb' 8 56 ++ w.extractLsb' 0 8 := by
        rw [BitVec.extractLsb'_append_extractLsb'_eq_extractLsb' (by rfl)]
        exact BitVec.extractLsb'_eq_self.symm
    _ = formatC0 (opField w) := by rw [hzero]; rfl

/-- Format CG has no bits but `OP`, `ON` and `Z` (30_encoding.md R92). -/
theorem eq_formatCG_of_zeroCG {w : Word} (hop : opField w = 0x01) (hz : zeroCG w = true) :
    w = formatCG (w.getLsbD 8) := by
  have hzero : w.extractLsb' 9 55 = 0 := by simpa [zeroCG] using hz
  have hon : w.extractLsb' 8 1 = BitVec.ofBool (w.getLsbD 8) := by
    ext j hj
    obtain rfl : j = 0 := by omega
    simp
  calc w = w.extractLsb' 9 55 ++ (w.extractLsb' 8 1 ++ w.extractLsb' 0 8) := by
        rw [BitVec.extractLsb'_append_extractLsb'_eq_extractLsb' (by rfl),
          BitVec.extractLsb'_append_extractLsb'_eq_extractLsb' (by rfl)]
        exact BitVec.extractLsb'_eq_self.symm
    _ = formatCG (w.getLsbD 8) := by rw [hzero, hon, ← opField, hop]; rfl

end Formats

section Decoding

theorem roundTrip (i : Instr) : Laws.RoundTrip.Statement i := by
  cases i with
  | nop => exact Laws.RoundTrip.nop
  | envGateOn => exact Laws.RoundTrip.envGateOn
  | envGateOff => exact Laws.RoundTrip.envGateOff
  | envStep => exact Laws.RoundTrip.envStep
  | envReset => exact Laws.RoundTrip.envReset
  | oscGen => exact Laws.RoundTrip.oscGen
  | oscReset => exact Laws.RoundTrip.oscReset
  | clrerr => exact Laws.RoundTrip.clrerr

theorem decode_encode (i : Instr) : decode (encode i) = .command i := by
  obtain ⟨-, -, hdec, -⟩ := roundTrip i
  exact hdec

/-- The legal fields are those of the eight commands' words: six opcodes of format C0, and the two gates. -/
theorem wellFormedWord_iff (w : Word) : wellFormedWord w = true ↔ ∃ i, w = encode i := by
  constructor
  · intro h
    have hfields : (opField w ∈ c0Opcodes ∧ zeroC0 w = true) ∨ (opField w = 0x01 ∧ zeroCG w = true) := by
      simpa only [wellFormedWord, Bool.or_eq_true, Bool.and_eq_true, List.contains_iff_mem,
        beq_iff_eq] using h
    rcases hfields with ⟨hmem, hz⟩ | ⟨hop, hz⟩
    · rw [eq_formatC0_of_zeroC0 hz]
      simp only [c0Opcodes, List.mem_cons, List.not_mem_nil, or_false] at hmem
      rcases hmem with hop | hop | hop | hop | hop | hop <;> rw [hop]
      exacts [⟨.nop, rfl⟩, ⟨.envStep, rfl⟩, ⟨.envReset, rfl⟩, ⟨.oscGen, rfl⟩, ⟨.oscReset, rfl⟩,
        ⟨.clrerr, rfl⟩]
    · rw [eq_formatCG_of_zeroCG hop hz]
      cases w.getLsbD 8
      exacts [⟨.envGateOff, rfl⟩, ⟨.envGateOn, rfl⟩]
  · rintro ⟨i, rfl⟩
    obtain ⟨-, hwf, -, -⟩ := roundTrip i
    exact hwf

theorem decode_eq_command_iff {w : Word} {i : Instr} : decode w = .command i ↔ w = encode i :=
  ⟨eq_encode_of_decode, fun h => h ▸ decode_encode i⟩

theorem wellFormedWord_iff_decode (w : Word) : wellFormedWord w = true ↔ ∃ i, decode w = .command i := by
  simp only [wellFormedWord_iff, decode_eq_command_iff]

/-- What executing the word does says which it is, in any state. -/
theorem decode_cases (w : Word) : (∃ i, decode w = .command i) ∨ decode w = .illegal w :=
  (executeWord_cases w State.reset).imp (fun ⟨i, hdec, _⟩ => ⟨i, hdec⟩) And.left

theorem decode_of_not_wellFormedWord {w : Word} (h : wellFormedWord w = false) : decode w = .illegal w := by
  refine (decode_cases w).resolve_left fun hcmd => ?_
  rw [← wellFormedWord_iff_decode, h] at hcmd
  cases hcmd

/-- Settles O2, by the words of the eight commands. -/
theorem decodingIsExactlyTheFieldForm : Obligations.DecodingIsExactlyTheFieldForm := by
  refine ⟨fun i => ⟨?_, decode_encode i⟩, fun w i h => (eq_encode_of_decode h).symm,
    wellFormedWord_iff_decode, fun w h => decode_of_not_wellFormedWord h⟩
  obtain ⟨hwf, -⟩ := roundTrip i
  exact hwf

/-- Settles O1: the words written out are the encodings of their commands. -/
theorem wordsOfTheOpcodeMapDecode : Obligations.WordsOfTheOpcodeMapDecode :=
  ⟨decode_encode .nop, decode_encode .envGateOn, decode_encode .envGateOff, decode_encode .envStep,
    decode_encode .envReset, decode_encode .oscGen, decode_encode .oscReset, decode_encode .clrerr⟩

/-- Settles O4: a word that is no command's has illegal fields, and a write of it to `CMD` executes it. -/
theorem illegalWordOnlyRaisesCommandError : Obligations.IllegalWordOnlyRaisesCommandError := by
  intro s w hw
  have hfields : wellFormedWord w = false := by
    rw [← Bool.not_eq_true, wellFormedWord_iff]
    rintro ⟨i, rfl⟩
    cases i <;> exact hw (by decide)
  have hdec : decode w = .illegal w := decode_of_not_wellFormedWord hfields
  refine ⟨hfields, hdec, ?_⟩
  calc performInput (.write 0x00 w) s = executeWord w (respond none s) := portWrite_cmd w s
    _ = .next (raiseError .command w (respond none s)) := executeWord_of_illegal hdec _

end Decoding

end Sys2Proof.Machine
end

section
/-! How the envelope's arithmetic treats the numbers at its edges: which operations can give a NaN, that only a NaN
depends on a free word, and what the clamp keeps (40_envelope.md R111, R124). -/

namespace Sys2Proof.Machine

section Comparisons

variable {a b x y : F64}

theorem flt_eq_false_of_fle (h : fle a b = true) : flt b a = false := by
  obtain ⟨-, -, hle⟩ := fle_iff.1 h
  rw [Bool.eq_false_iff]
  intro hlt
  obtain ⟨-, -, hlt⟩ := flt_iff.1 hlt
  omega

theorem fle_eq_false_of_flt (h : flt a b = true) : fle b a = false := by
  obtain ⟨-, -, hlt⟩ := flt_iff.1 h
  rw [Bool.eq_false_iff]
  intro hle
  obtain ⟨-, -, hle⟩ := fle_iff.1 hle
  omega

theorem fle_trans {c : F64} (hab : fle a b = true) (hbc : fle b c = true) : fle a c = true := by
  obtain ⟨ha, -, hle⟩ := fle_iff.1 hab
  obtain ⟨-, hc, hle'⟩ := fle_iff.1 hbc
  exact fle_iff.2 ⟨ha, hc, Int.le_trans hle hle'⟩

theorem fvalue_nonneg_of_fle (h : fle posZero x = true) : 0 ≤ fvalue x := by
  obtain ⟨-, -, hle⟩ := fle_iff.1 h
  rwa [fvalue_posZero] at hle

/-- What is neither a NaN nor an infinity is finite. -/
theorem isFinite_of_isNaN_isInf (hn : isNaN x = false) (hi : isInf x = false) : isFinite x = true := by
  rw [isNaN_eq_false] at hn
  have hne : fmag x ≠ infBits := by simpa [isInf] using hi
  exact isFinite_iff.2 (Nat.lt_of_le_of_ne hn hne)

end Comparisons

section FreeWords

variable {free free' : Word} {a b b' : F64}

theorem SameReal.eq_of_number {x y : F64} (h : SameReal x y) (hx : isNaN x = false) : x = y := by
  rcases h with rfl | ⟨hnan, -⟩
  · rfl
  · rw [hx] at hnan
    cases hnan

theorem isNaN_fadd_of_isNaN_right (h : isNaN b = true) : isNaN (fadd free a b) = true := by
  simp [fadd, h]

/-- A sum depends on the free word as far as it is a NaN, and on a NaN term only for being one. -/
theorem sameReal_fadd (h : SameReal b b') : SameReal (fadd free a b) (fadd free' a b') := by
  rcases h with rfl | ⟨hb, hb'⟩
  · simp only [SameReal, fadd]
    split
    · exact .inr ⟨isNaN_freeNaN _, isNaN_freeNaN _⟩
    split
    · split
      · exact .inr ⟨isNaN_freeNaN _, isNaN_freeNaN _⟩
      · exact .inl rfl
    · exact .inl rfl
  · exact .inr ⟨isNaN_fadd_of_isNaN_right hb, isNaN_fadd_of_isNaN_right hb'⟩

/-- A product depends on the free word as far as it is a NaN. -/
theorem sameReal_fmul : SameReal (fmul free a b) (fmul free' a b) := by
  simp only [SameReal, fmul]
  split
  · exact .inr ⟨isNaN_freeNaN _, isNaN_freeNaN _⟩
  split
  · split
    · exact .inr ⟨isNaN_freeNaN _, isNaN_freeNaN _⟩
    · exact .inl rfl
  · exact .inl rfl

/-- A difference depends on the free word as far as it is a NaN. -/
theorem sameReal_fsub : SameReal (fsub free a b) (fsub free' a b) := sameReal_fadd (.inl rfl)

/-- The clamp does not tell NaNs apart. -/
theorem clamp01_congr {x y : F64} (h : SameReal x y) : clamp01 x = clamp01 y := by
  rcases h with rfl | ⟨hx, hy⟩
  · rfl
  · rw [clamp01_of_isNaN hx, clamp01_of_isNaN hy]

/-- A finite number and a number add up to a number. -/
theorem isNaN_fadd_of_isFinite_left (ha : isFinite a = true) (hb : isNaN b = false) :
    isNaN (fadd free a b) = false := by
  cases hi : isInf b with
  | true => simp [fadd, isNaN_of_isFinite ha, isInf_of_isFinite ha, hb, hi]
  | false => exact isNaN_fadd_of_finite ha (isFinite_of_isNaN_isInf hb hi)

/-- A finite number times a number is a number, but for zero times an infinity. -/
theorem isNaN_fmul_of_isFinite_left (ha : isFinite a = true) (hb : isNaN b = false)
    (h : isInf b = false ∨ isZero a = false) : isNaN (fmul free a b) = false := by
  cases hi : isInf b with
  | true =>
    have ha0 : isZero a = false := by simpa [hi] using h
    have hb0 : isZero b = false := by
      have hmag : fmag b = infBits := by simpa [isInf] using hi
      simp [isZero, hmag, infBits]
    have hprod : fmul free a b = packF (fsign a != fsign b) infBits := by
      simp [fmul, isNaN_of_isFinite ha, hb, hi, ha0, hb0]
    rw [hprod, isNaN_eq_false, fmag_packF infBits_lt]
  | false =>
    rw [fmul_of_finite ha (isFinite_of_isNaN_isInf hb hi), isNaN_eq_false, fmag_packF (roundUnits_lt _ _)]
    exact roundUnits_le_infBits _ _

/-- A negative sign that is not below zero is that of `-0.0`. -/
theorem unitsOf_eq_zero_of_fsign (hs : fsign a = true) (h0 : 0 ≤ fvalue a) :
    unitsOf (fmag a) = 0 := by
  rw [fvalue, if_pos hs] at h0
  omega

/-- A product of finite numbers not below zero is not below zero. -/
theorem fvalue_fmul_nonneg (ha : isFinite a = true) (hb : isFinite b = true) (ha0 : 0 ≤ fvalue a)
    (hb0 : 0 ≤ fvalue b) : 0 ≤ fvalue (fmul free a b) := by
  cases hs : fsign (fmul free a b) with
  | false => exact fvalue_nonneg_of_fsign hs
  | true =>
    have hneg : fsign a = true ∨ fsign b = true := by
      rw [fsign_fmul ha hb] at hs
      cases ha' : fsign a <;> simp_all
    have hzero : unitsOf (fmag a) * unitsOf (fmag b) = 0 := by
      rcases hneg with hneg | hneg
      · rw [unitsOf_eq_zero_of_fsign hneg ha0, Nat.zero_mul]
      · rw [unitsOf_eq_zero_of_fsign hneg hb0, Nat.mul_zero]
    rw [fmul_of_finite ha hb, hzero, roundUnits_zero, fvalue_packF (by decide)]
    simp

end FreeWords

section Clamp

variable {x : F64}

/-- A number in [0, 1] is left as it is (40_envelope.md R111). -/
theorem clamp01_of_inUnit (h : InUnit x) : clamp01 x = x := by
  simp [clamp01, flt_eq_false_of_fle h.2, h.1]

/-- What is above 1.0 is 1.0 (40_envelope.md R111). -/
theorem clamp01_of_gt_one (h : flt one64 x = true) : clamp01 x = one64 := if_pos h

/-- What is below zero is `+0.0` (40_envelope.md R111). -/
theorem clamp01_of_lt_zero (h : flt x posZero = true) : clamp01 x = posZero := by
  rcases clamp01_cases x with ⟨hgt, -⟩ | ⟨-, hge, -⟩ | ⟨-, hx⟩
  · have hle := fle_trans fle_posZero_one64 (fle_of_flt hgt)
    rw [fle_eq_false_of_flt h] at hle
    cases hle
  · rw [fle_eq_false_of_flt h] at hge
    cases hge
  · exact hx

/-- The clamp does not take a number below one in [0, 1] that it is not below. -/
theorem fle_clamp01 {a : F64} (ha : InUnit a) (h : fle a x = true) : fle a (clamp01 x) = true := by
  rcases clamp01_cases x with ⟨-, hx⟩ | ⟨-, -, hx⟩ | ⟨hneg, -⟩
  · rw [hx]
    exact ha.2
  · rw [hx]
    exact h
  · rw [fle_trans ha.1 h] at hneg
    cases hneg

/-- Settles O26, by where the operand lies. -/
theorem clampAnswersInUnit : Obligations.ClampAnswersInUnit := fun x =>
  ⟨inUnit_clamp01 x, clamp01_of_inUnit, clamp01_of_gt_one, clamp01_of_lt_zero, clamp01_of_isNaN⟩

end Clamp

section Pow

/-- What law P2 gives of `powFn` (00_scope.md R14). -/
theorem powFn_facts {x y : F64} (h : powDomain x y = true) :
    isNaN (powFn x y) = false ∧ fle posZero (powFn x y) = true ∧
      (isFinite (powFn x y) = true ∨ flt one64 x = true) :=
  (powLaws_lawfulPow Config.powRaw).p2 x y h

/-- Law P1 (00_scope.md R14). -/
theorem powFn_one64 (x : F64) : powFn x one64 = x := (powLaws_lawfulPow Config.powRaw).p1 x

theorem legalShape_iff {y : F64} : legalShape y = true ↔ isFinite y = true ∧ flt posZero y = true := by
  simp [legalShape]

end Pow

end Sys2Proof.Machine
end

section
/-! The envelope's commands (40_envelope.md R113 to R124): when a step holds, what it does otherwise, and the one
numeric fact a ramping step rests on, that `powFn` is called inside its domain. -/

namespace Sys2Proof.Machine

section Gates

variable {c : EnvConfig} {r : EnvRuntime}

/-- Settles O22: the command is that state. -/
theorem envResetRestoresIdle : Obligations.EnvResetRestoresIdle := fun _ => rfl

theorem increment_eq_fdiv (free : Word) (dur : Count) :
    increment free dur = fdiv 0 one64 (f64OfNat dur.toNat) := increment_free free 0 dur

theorem exec_envGateOn (s : State) : exec .envGateOn s =
    .next (drawn { s with env := gateOn (freeWords s) s.envCfg s.env }) := rfl

/-- What `env.gate.on` leaves does not depend on the free words, but for a NaN delta. -/
theorem gateOn_eq (free : Nat → Word) (c : EnvConfig) (r : EnvRuntime) :
    gateOn free c r =
      { stage := .attack
        remain := c.atkDur
        ramp := posZero
        inc := fdiv 0 one64 (f64OfNat c.atkDur.toNat)
        delta := fsub (free 0) one64 r.amp
        shape := c.atkShape
        base := r.amp
        amp := r.amp
        out := r.out } := by
  simp only [gateOn, increment_eq_fdiv]

/-- A second `env.gate.on` finds the amplitude of the first (40_envelope.md R113). -/
theorem gateOn_gateOn {free free' : Nat → Word} (h : isNaN r.amp = false) :
    gateOn free' c (gateOn free c r) = gateOn free c r := by
  have hnum : isNaN (fsub (free 0) one64 r.amp) = false :=
    isNaN_fadd_of_isFinite_left isFinite_one64 (by rwa [isNaN_fneg])
  have hdelta : fsub (free 0) one64 r.amp = fsub (free' 0) one64 r.amp :=
    sameReal_fsub.eq_of_number hnum
  simp only [gateOn_eq, hdelta]

/-- Settles O27, by what the command leaves of the envelope's registers. -/
theorem gateOnStartsAttack : Obligations.GateOnStartsAttack := by
  constructor
  · intro s h
    obtain ⟨t, ht⟩ : ∃ t, t = drawn { s with env := gateOn (freeWords s) s.envCfg s.env } := ⟨_, rfl⟩
    have hagain : gateOn (freeWords t) t.envCfg t.env = t.env := by
      rw [ht, drawn_env, drawn_envCfg]
      exact gateOn_gateOn h
    refine ⟨t, _, by rw [exec_envGateOn, ht], exec_envGateOn t, rfl, rfl, ?_, rfl, rfl⟩
    rw [drawn_env, hagain]
  · intro s
    refine ⟨fsub (freeWords s 0) one64 s.env.amp, _, sameReal_fsub, exec_envGateOn s, rfl, rfl, ?_, rfl,
      rfl⟩
    rw [drawn_env]
    exact gateOn_eq (freeWords s) s.envCfg s.env

/-- The states in which `env.gate.off` starts a Release (40_envelope.md R114). -/
abbrev BeforeRelease (stage : Stage) : Prop := stage = .attack ∨ stage = .decay ∨ stage = .sustain

theorem gateOffEnabled_iff {needsGated : Bool} : gateOffEnabled needsGated c r = true ↔
    BeforeRelease r.stage ∧ (needsGated = true → c.gated = true) := by
  have hstage : betweenIdleAndRelease r.stage = true ↔ BeforeRelease r.stage := by
    cases r.stage <;> simp [betweenIdleAndRelease, BeforeRelease]
  simp only [gateOffEnabled, Bool.and_eq_true, hstage]
  cases needsGated <;> simp

theorem gateOff_of_enabled {needsGated : Bool} {s : State}
    (h : gateOffEnabled needsGated s.envCfg s.env = true) :
    gateOff needsGated s = drawn { s with env := enterRelease (freeWords s) s.envCfg s.env } := if_pos h

theorem gateOff_of_not_enabled {needsGated : Bool} {s : State}
    (h : ¬ gateOffEnabled needsGated s.envCfg s.env = true) : gateOff needsGated s = s := if_neg h

/-- This hardware enables the command in an ungated envelope too (00_scope.md R6). -/
theorem exec_envGateOff_of_before {s : State} (h : BeforeRelease s.env.stage) : exec .envGateOff s =
    .next (drawn { s with env := enterRelease (freeWords s) s.envCfg s.env }) :=
  congrArg _ (gateOff_of_enabled (needsGated := false) (gateOffEnabled_iff.2 ⟨h, nofun⟩))

/-- What an enabled `env.gate.off` leaves does not depend on the free words. -/
theorem enterRelease_eq (free : Nat → Word) (c : EnvConfig) (r : EnvRuntime) :
    enterRelease free c r =
      { stage := .release
        remain := c.relDur
        ramp := posZero
        inc := fdiv 0 one64 (f64OfNat c.relDur.toNat)
        delta := fneg r.amp
        shape := c.relShape
        base := r.amp
        amp := r.amp
        out := r.out } := by
  simp only [enterRelease, increment_eq_fdiv]

/-- Settles O28, by whether the command is enabled. -/
theorem gateOffStartsRelease : Obligations.GateOffStartsRelease := by
  refine ⟨fun s => rfl, fun needsGated s => ⟨fun h => ?_, fun h => ?_⟩⟩
  · rw [gateOff_of_enabled (gateOffEnabled_iff.2 h)]
    exact ⟨rfl, rfl, enterRelease_eq _ _ _, rfl, rfl⟩
  · exact gateOff_of_not_enabled (mt gateOffEnabled_iff.1 h)

end Gates

section Hold

variable {c : EnvConfig} {r : EnvRuntime}

/-- The two cases in which a step holds (40_envelope.md R115). -/
theorem envHolds_iff : envHolds c r = true ↔ r.stage = .idle ∨ (r.stage = .sustain ∧ c.gated = true) := by
  unfold envHolds
  cases r.stage <;> simp

theorem not_envHolds_iff :
    envHolds c r = false ↔ r.stage ≠ .idle ∧ ¬(r.stage = .sustain ∧ c.gated = true) := by
  rw [← Bool.not_eq_true, envHolds_iff, not_or]

theorem exec_envStep_of_holds {s : State} (h : envHolds s.envCfg s.env = true) :
    exec .envStep s = .next { s with env := { s.env with out := s.env.amp } } := by
  rcases execEnvStep_cases s with ⟨-, hstep⟩ | ⟨hramps, -⟩
  · exact hstep
  · rw [h] at hramps
    cases hramps

theorem exec_envStep_of_ramps {s : State} (h : envHolds s.envCfg s.env = false) :
    exec .envStep s = .next (drawn { s with env := envRamp (freeWords s) s.envCfg s.env }) := by
  rcases execEnvStep_cases s with ⟨hholds, -⟩ | ⟨-, hstep⟩
  · rw [h] at hholds
    cases hholds
  · exact hstep

/-- Settles O29, by the two cases in which a step holds. -/
theorem stepHoldsInIdleAndGatedSustain : Obligations.StepHoldsInIdleAndGatedSustain := fun _ h =>
  exec_envStep_of_holds (envHolds_iff.2 h)

end Hold

section Transition

variable {free : Nat → Word} {c d : EnvConfig} {r : EnvRuntime} {v : F64}

/-- A segment that ends is followed by the next stage of the cycle (40_envelope.md R110). -/
@[simp] theorem enterNext_stage : (enterNext free c v r).stage = nextStage r.stage := by
  cases h : r.stage <;> simp [enterNext, nextStage, h]

@[simp] theorem enterNext_out : (enterNext free c v r).out = r.out := by
  cases h : r.stage <;> simp [enterNext, h]

/-- Every ramping step returns its sample. -/
theorem envRamp_out :
    (envRamp free c r).out = envSample free (fadd (free 0) r.ramp r.inc) r := by
  by_cases hlast : r.remain = 1
  · rw [envRamp_end hlast, enterNext_out]
  · rw [envRamp_inside hlast]

theorem envRamp_stage :
    (envRamp free c r).stage = if r.remain = 1 then nextStage r.stage else r.stage := by
  split
  next hlast => rw [envRamp_end hlast, enterNext_stage]
  next hlast => rw [envRamp_inside hlast]

/-- What a ramping step reads of the configuration is what entering the next segment reads. -/
theorem envRamp_congr
    (h : r.remain = 1 → ∀ v q, q.stage = r.stage →
      enterNext (freeFrom free 3) c v q = enterNext (freeFrom free 3) d v q) :
    envRamp free c r = envRamp free d r := by
  by_cases hlast : r.remain = 1
  · rw [envRamp_end hlast, envRamp_end hlast]
    exact h hlast _ _ rfl
  · rw [envRamp_inside hlast, envRamp_inside hlast]

/-- Settles O34, by the registers each point names. -/
theorem configurationIsReadOnlyAtItsPoints : Obligations.ConfigurationIsReadOnlyAtItsPoints := by
  intro free c d r
  refine ⟨fun hdur hshape => ?_, ?_, fun hdur hshape => ?_, fun hgated => ?_, fun hinside => ?_,
    fun hstage hdur hshape hlevel => ?_, fun hstage hdur => ?_, fun hstage hdur hshape => ?_,
    fun hstage => ?_⟩
  · simp only [gateOn, hdur, hshape]
  · simp [gateOffEnabled]
  · simp only [enterRelease, hdur, hshape]
  · simp only [envHolds, hgated]
  · exact envRamp_congr fun hlast => absurd hlast hinside
  all_goals
    refine envRamp_congr fun _ v q hq => ?_
    rw [hstage] at hq
    simp_all only [enterNext]

end Transition

section Samples

variable {free : Nat → Word} {c : EnvConfig} {r : EnvRuntime} {s : State}

theorem rampingStage_of_ne {stage : Stage} (hidle : stage ≠ .idle) (hsus : stage ≠ .sustain) :
    rampingStage stage = true := by
  cases stage <;> simp_all [rampingStage]

/-- In Sustain nothing ramps (40_envelope.md R124). -/
theorem sustain_facts {w : Word} (h : EnvRuntimeSound r) (hsus : r.stage = .sustain) :
    fadd w r.ramp r.inc = posZero ∧ r.shape = one64 ∧ r.delta = posZero := by
  obtain ⟨-, -, -, hflat, -⟩ := h
  obtain ⟨hramp, hinc, hshape, hdelta⟩ := hflat hsus
  rw [hramp, hinc]
  exact ⟨fadd_posZero isFinite_posZero (by decide), hshape, hdelta⟩

/-- In a ramping segment the advanced ramp is finite and above zero, as the increment is, and the delta is small
(40_envelope.md R124). -/
theorem ramping_facts {w : Word} (h : EnvRuntimeSound r) (hstage : rampingStage r.stage = true) :
    isFinite (fadd w r.ramp r.inc) = true ∧ flt posZero (fadd w r.ramp r.inc) = true ∧
      (isFinite r.delta = true ∧ fle (fabs r.delta) one64 = true) := by
  obtain ⟨-, hlive, -, -, hramping⟩ := h
  have hidle : r.stage ≠ .idle := by
    intro hst
    rw [hst] at hstage
    cases hstage
  obtain ⟨-, -, ⟨hrfin, hrlo⟩, hifin, -⟩ := hlive hidle
  obtain ⟨⟨hilo, hihi⟩, hrhi, hdelta⟩ := hramping hstage
  obtain ⟨hfin, -, -⟩ := fadd_ramp_le (free := w) (by omega) ⟨hrfin, hrlo, hrhi⟩ ⟨hifin, hilo, hihi⟩
  have hge : fvalue r.inc ≤ fvalue (fadd w r.ramp r.inc) :=
    le_fadd hrfin hifin (isNaN_of_isFinite hifin) (Int.le_add_of_nonneg_left (fvalue_nonneg_of_fle hrlo))
  have hpos := (flt_iff.1 hilo).2.2
  exact ⟨hfin, flt_iff.2 ⟨isNaN_posZero, isNaN_of_isFinite hfin, Int.lt_of_lt_of_le hpos hge⟩, hdelta⟩

/-- A step that does not hold calls `powFn` inside its domain, with a small delta (40_envelope.md R124). -/
theorem powDomain_of_ramps {w : Word} (h : EnvRuntimeSound r) (hramps : envHolds c r = false) :
    powDomain (fadd w r.ramp r.inc) r.shape = true ∧
      (isFinite r.delta = true ∧ fle (fabs r.delta) one64 = true) := by
  obtain ⟨hidle, -⟩ := not_envHolds_iff.1 hramps
  by_cases hsus : r.stage = .sustain
  · obtain ⟨hramp, hshape, hdelta⟩ := sustain_facts (w := w) h hsus
    rw [hramp, hshape, hdelta]
    exact ⟨powDomain_posZero isFinite_one64 (legalShape_iff.1 legalShape_one64).2, by decide +kernel⟩
  · obtain ⟨hfin, hpos, hdelta⟩ := ramping_facts (w := w) h (rampingStage_of_ne hidle hsus)
    have ⟨_, hlive, _⟩ := h
    obtain ⟨-, hshape, -⟩ := hlive hidle
    exact ⟨powDomain_iff.2 ⟨hfin, fle_of_flt hpos, legalShape_iff.1 hshape⟩, hdelta⟩

/-- A sum onto an amplitude is no `-0.0` (40_envelope.md R124). -/
theorem fadd_ne_negZero {w : Word} {base x : F64} (hbase : Amplitude base) :
    fadd w base x ≠ fneg posZero := by
  intro hsum
  have hsign : fsign (fadd w base x) = false :=
    fsign_fadd_false hbase.2 (by rw [hsum]; decide) (by rw [hsum]; decide)
  rw [hsum] at hsign
  exact absurd hsign (by decide)

/-- Settles O31, by the domain of `powFn` and law P2. -/
theorem rampingStepStaysInTheDomain : Obligations.RampingStepStaysInTheDomain := by
  intro s free h hramps ramp p sum
  obtain ⟨hsound, -⟩ := coreInvariant_iff.1 h
  obtain ⟨hidle, -⟩ := not_envHolds_iff.1 hramps
  have ⟨_, _, ⟨hbase, _⟩, _⟩ := hsound
  obtain ⟨hdomain, hdelta⟩ := powDomain_of_ramps (w := free 0) hsound hramps
  obtain ⟨hnum, hge, -⟩ := powFn_facts hdomain
  refine ⟨hdomain, fun hsus => (sustain_facts hsound hsus).1, fun hsus => ?_, hnum, hge, hdelta,
    fun hprod => ?_, fadd_ne_negZero hbase⟩
  · exact (ramping_facts hsound (rampingStage_of_ne hidle hsus)).2.1
  · exact isNaN_fadd_of_isFinite_left (isFinite_of_inUnit hbase.1)
      (isNaN_fmul_of_isFinite_left hdelta.1 hnum hprod)

/-- The sample of R116 does not depend on the free words: a NaN clamps to `+0.0` whichever it is. -/
theorem envSample_eq (free : Nat → Word) (ramp : F64) (r : EnvRuntime) :
    envSample free ramp r = clamp01 (fadd 0 r.base (fmul 0 r.delta (powFn ramp r.shape))) :=
  clamp01_congr (sameReal_fadd sameReal_fmul)

/-- Nor does the sum of the ramp (40_envelope.md R116). -/
theorem fadd_ramp_eq {w : Word} (h : EnvRuntimeSound r) (hidle : r.stage ≠ .idle) :
    fadd w r.ramp r.inc = fadd 0 r.ramp r.inc := by
  obtain ⟨-, hlive, -⟩ := h
  obtain ⟨-, -, ⟨hramp, -⟩, hinc, -⟩ := hlive hidle
  exact fadd_free 0 hramp hinc

/-- A step of Sustain samples the base amplitude: its delta is zero (40_envelope.md R116). -/
theorem envSample_sustain {w : Word} (h : EnvRuntimeSound r) (hsus : r.stage = .sustain) :
    envSample free (fadd w r.ramp r.inc) r = r.base := by
  have ⟨_, _, ⟨hbase, _⟩, _⟩ := h
  obtain ⟨hramp, hshape, hdelta⟩ := sustain_facts (w := w) h hsus
  have hprod : fmul 0 posZero posZero = posZero := by decide +kernel
  rw [envSample_eq, hramp, hshape, hdelta, powFn_one64, hprod,
    fadd_posZero (isFinite_of_inUnit hbase.1) hbase.2, clamp01_of_inUnit hbase.1]

/-- Settles O32, by the sample of a Sustain. -/
theorem ungatedSustainReturnsItsBase : Obligations.UngatedSustainReturnsItsBase := by
  intro s h hsus hgated
  obtain ⟨hsound, -⟩ := coreInvariant_iff.1 h
  have hramps : envHolds s.envCfg s.env = false := not_envHolds_iff.2 (by simp [hsus, hgated])
  refine ⟨_, exec_envStep_of_ramps hramps, ?_⟩
  rw [drawn_env, envRamp_out, envSample_sustain hsound hsus]

end Samples

section Segments

variable {free : Nat → Word} {c : EnvConfig} {r : EnvRuntime} {s t : State}

/-- The registers after a ramping step are those with the envelope's that R116 gives. -/
theorem envStep_registers {q : EnvRuntime} (hramps : envHolds s.envCfg s.env = false)
    (hq : envRamp (freeWords s) s.envCfg s.env = q) :
    ∃ t, exec .envStep s = .next t ∧ SameRegisters t { s with env := q } :=
  ⟨_, exec_envStep_of_ramps hramps, rfl, rfl, hq, rfl, rfl⟩

/-- The registers with which a segment ends whose last output is `v`, before the next one's parameters
(40_envelope.md R116). -/
def segmentEnd (v : F64) (r : EnvRuntime) : EnvRuntime :=
  { r with ramp := posZero, remain := 0, base := v, amp := v, out := v }

theorem envRamp_segmentEnd {v : F64} (hlast : r.remain = 1)
    (hv : envSample free (fadd (free 0) r.ramp r.inc) r = v) :
    envRamp free c r = enterNext (freeFrom free 3) c v (segmentEnd v r) := by
  rw [envRamp_end hlast, hv, segmentEnd]

/-- Settles O30, by the last step of each segment and the steps before it. -/
theorem stepAdvancesTheSegment : Obligations.StepAdvancesTheSegment := by
  intro s h hidle hgated ramp v
  have hramps := not_envHolds_iff.2 ⟨hidle, hgated⟩
  obtain ⟨hsound, ⟨-, -, hlevel⟩, -⟩ := coreInvariant_iff.1 h
  have hramp : fadd (freeWords s 0) s.env.ramp s.env.inc = ramp := fadd_ramp_eq hsound hidle
  have hv : envSample (freeWords s) (fadd (freeWords s 0) s.env.ramp s.env.inc) s.env = v := by
    rw [envSample_eq, hramp]
  have hvfin : isFinite v = true := isFinite_of_inUnit (inUnit_clamp01 _)
  have hlevel' : isFinite s.envCfg.decLevel = true :=
    isFinite_of_inUnit (inUnit_of_legalLevel hlevel)
  refine ⟨fun hinside => ?_, fun hlast hstage => ?_, fun hlast hstage => ?_, fun hlast hstage => ?_,
    fun hlast hstage => ?_⟩
  · apply envStep_registers hramps
    rw [envRamp_inside hinside, hv, hramp]
  all_goals
    apply envStep_registers hramps
    rw [envRamp_segmentEnd hlast hv]
    simp only [enterNext, segmentEnd, hstage, increment_eq_fdiv, fsub_free 0 hvfin hlevel']

/-- A step that changes the stage ends a segment (40_envelope.md R116). -/
theorem envStep_of_stage_ne (hx : exec .envStep s = .next t) (hne : t.env.stage ≠ s.env.stage) :
    s.env.stage ≠ .idle ∧ ∃ v, t.env =
      enterNext (freeFrom (freeWords s) 3) s.envCfg v (segmentEnd v s.env) := by
  cases hholds : envHolds s.envCfg s.env with
  | true =>
    rw [exec_envStep_of_holds hholds] at hx
    cases hx
    exact absurd rfl hne
  | false =>
    rw [exec_envStep_of_ramps hholds] at hx
    cases hx
    rw [drawn_env, envRamp_stage] at hne
    have hlast : s.env.remain = 1 := by
      by_contra hinside
      rw [if_neg hinside] at hne
      exact hne rfl
    exact ⟨(not_envHolds_iff.1 hholds).1, _, envRamp_segmentEnd hlast rfl⟩

/-- Settles O35, by what each segment's end leaves of the amplitudes. -/
theorem segmentsAreContinuous : Obligations.SegmentsAreContinuous := by
  intro s t _ hx hne
  obtain ⟨hidle, v, henv⟩ := envStep_of_stage_ne hx hne
  rw [henv]
  constructor
  · intro hrel
    cases hstage : s.env.stage with
    | idle => exact absurd hstage hidle
    | release => exact absurd hstage hrel
    | attack | decay | sustain => simp [enterNext, segmentEnd, hstage]
  · intro hrel
    simp [enterNext, segmentEnd, hrel]

end Segments

section Stages

variable {s t : State} {j : Instr}

/-- A command's word, written to `CMD`, runs the command. -/
theorem performInput_command (j : Instr) (s : State) :
    performInput (.write (regIndex .cmd) (encode j)) s = exec j (respond none s) :=
  (portWrite_cmd _ _).trans (executeWord_encode _ _)

/-- The commands that change the stage, from where and to where (40_envelope.md R110). -/
theorem exec_stage (hx : exec j s = .next t) (hne : t.env.stage ≠ s.env.stage) :
    (j = .envGateOn ∧ t.env.stage = .attack) ∨
    (j = .envGateOff ∧ t.env.stage = .release ∧ BeforeRelease s.env.stage) ∨
    (j = .envStep ∧ s.env.stage ≠ .idle ∧ t.env.stage = nextStage s.env.stage) ∨
    (j = .envReset ∧ t.env.stage = .idle) := by
  cases j with
  | nop | clrerr | oscGen | oscReset =>
    cases hx
    exact absurd rfl hne
  | envGateOn =>
    cases hx
    exact .inl ⟨rfl, rfl⟩
  | envGateOff =>
    rw [gateOffStartsRelease.1 s] at hx
    by_cases hon : gateOffEnabled false s.envCfg s.env = true
    · rw [gateOff_of_enabled hon] at hx
      cases hx
      exact .inr (.inl ⟨rfl, rfl, (gateOffEnabled_iff.1 hon).1⟩)
    · rw [gateOff_of_not_enabled hon] at hx
      cases hx
      exact absurd rfl hne
  | envStep =>
    obtain ⟨hidle, v, henv⟩ := envStep_of_stage_ne hx hne
    refine .inr (.inr (.inl ⟨rfl, hidle, ?_⟩))
    rw [henv, enterNext_stage]
    rfl
  | envReset =>
    cases hx
    exact .inr (.inr (.inr ⟨rfl, rfl⟩))

/-- Settles O33: each of the five transitions is made, and of the effects of an input only a command's and a
hard reset's reach the stage. -/
theorem onlyTheseInputsChangeTheStage : Obligations.OnlyTheseInputsChangeTheStage := by
  refine ⟨fun s => ?_, rfl, fun s => ⟨?_, fun hbefore => ?_, fun hramps hlast => ?_, ?_, ?_⟩,
    fun i s t hp hne => ?_⟩
  · simp only [readReg]
    cases s.env.stage <;> rfl
  · exact ⟨_, (performInput_command _ _).trans (exec_envGateOn _), rfl⟩
  · exact ⟨_, (performInput_command _ _).trans (exec_envGateOff_of_before hbefore), rfl⟩
  · refine ⟨_, (performInput_command _ _).trans (exec_envStep_of_ramps hramps), ?_⟩
    rw [drawn_env, envRamp_stage]
    exact if_pos hlast
  · exact ⟨_, (performInput_command _ _).trans (envResetRestoresIdle _), rfl⟩
  · exact ⟨_, rfl, rfl⟩
  · obtain ⟨w, heff⟩ := performInput_effect hp
    cases heff with
    | read | raise => exact absurd rfl hne
    | store => exact absurd (by simp) hne
    | hardReset => exact .inr (.inr (.inr ⟨.inr rfl, rfl⟩))
    | command hx =>
      rcases exec_stage hx hne with ⟨rfl, hst⟩ | ⟨rfl, hst⟩ | ⟨rfl, hst⟩ | ⟨rfl, hst⟩
      · exact .inl ⟨rfl, hst⟩
      · exact .inr (.inl ⟨rfl, hst⟩)
      · exact .inr (.inr (.inl ⟨rfl, hst⟩))
      · exact .inr (.inr (.inr ⟨.inl rfl, hst⟩))

end Stages

end Sys2Proof.Machine
end

section
/-! Runs of `env.step` commands (40_envelope.md R117, R118, R123, R125, R126): a hold lasts for ever, a segment its
steps, and an ungated cycle the sum of its durations, because each step takes one from what is left. -/

namespace Sys2Proof.Machine

section Runs

variable {s t : State} {j : Instr}

theorem commands_add (m n : Nat) (j : Instr) : commands (m + n) j = commands m j ++ commands n j :=
  List.replicate_add ..

theorem performAll_append {xs ys : List Input} (h : performAll xs s = .next t) :
    performAll (xs ++ ys) s = performAll ys t := by
  induction xs generalizing s with
  | nil => cases h; rfl
  | cons i rest ih =>
    unfold performAll at h
    split at h
    next u hu =>
      rw [List.cons_append, performAll_cons_of_performInput hu]
      exact ih h
    next => cases h
    next => cases h

/-- A command at the head of a list of inputs is run first. -/
theorem performAll_command_append {inputs : List Input} (h : exec j (respond none s) = .next t) :
    performAll (commands 1 j ++ inputs) s = performAll inputs t :=
  performAll_cons_of_performInput ((performInput_command j s).trans h) inputs

theorem performAll_commands_succ {n : Nat} (h : exec j (respond none s) = .next t) :
    performAll (commands (n + 1) j) s = performAll (commands n j) t := performAll_command_append h

/-- Commands of a kind, counted down: what each of them takes from `k + 1` to `k`, `n` of them take from `k + n`
to `k`. -/
theorem performAll_commands_countdown {P : Nat → State → Prop}
    (hstep : ∀ k s, P (k + 1) s → ∃ t, exec j (respond none s) = .next t ∧ P k t) (n k : Nat)
    (s : State) (h : P (k + n) s) : ∃ t, performAll (commands n j) s = .next t ∧ P k t := by
  induction n generalizing s with
  | zero => exact ⟨s, rfl, h⟩
  | succ n ih =>
    obtain ⟨t, ht, hp⟩ := hstep (k + n) s h
    rw [performAll_commands_succ ht]
    exact ih t hp

end Runs

section Holds

variable {s : State}

/-- Steps that hold only return the held amplitude (40_envelope.md R115). -/
theorem performAll_envStep_of_holds (n : Nat) (h : envHolds s.envCfg s.env = true) :
    ∃ t, performAll (commands n .envStep) s = .next t ∧
      SameRegisters t { s with env := { s.env with out := if n = 0 then s.env.out else s.env.amp } } := by
  induction n generalizing s with
  | zero => exact ⟨s, rfl, rfl, rfl, rfl, rfl, rfl⟩
  | succ n ih =>
    obtain ⟨t, hrun, herr, hcfg, henv, hosc, hosc'⟩ :=
      ih (s := { respond none s with env := { s.env with out := s.env.amp } }) h
    refine ⟨t, ?_, herr, hcfg, ?_, hosc, hosc'⟩
    · rw [performAll_commands_succ (exec_envStep_of_holds h)]
      exact hrun
    · simpa using henv

/-- Settles O37: a gated Sustain holds. -/
theorem gatedSustainHoldsForEver : Obligations.GatedSustainHoldsForEver := fun _ n hsus hgated =>
  performAll_envStep_of_holds n (envHolds_iff.2 (.inr ⟨hsus, hgated⟩))

/-- Settles O38: Idle holds, at the amplitude `+0.0`. -/
theorem idleReturnsZeroForEver : Obligations.IdleReturnsZeroForEver := by
  intro s n h hidle
  obtain ⟨⟨hrest, -⟩, -⟩ := h
  obtain ⟨-, -, -, -, -, -, hamp⟩ := hrest hidle
  rw [← hamp]
  exact performAll_envStep_of_holds n (envHolds_iff.2 (.inl hidle))

end Holds

section Lengths

variable {s t : State}

/-- `t` is in the segment `s` is in, with `k` steps left after the next one. -/
structure InSegment (s : State) (k : Nat) (t : State) : Prop where
  envCfg : t.envCfg = s.envCfg
  stage : t.env.stage = s.env.stage
  base : t.env.base = s.env.base
  delta : t.env.delta = s.env.delta
  remain : t.env.remain.toNat = k + 1

theorem InSegment.ramps {k : Nat} (h : InSegment s k t) (hramps : envHolds s.envCfg s.env = false) :
    envHolds t.envCfg t.env = false := by
  rw [not_envHolds_iff] at *
  rwa [h.envCfg, h.stage]

/-- A step inside a segment takes one of its steps (40_envelope.md R116). -/
theorem InSegment.step {k : Nat} (h : InSegment s (k + 1) t)
    (hramps : envHolds s.envCfg s.env = false) :
    ∃ u, exec .envStep (respond none t) = .next u ∧ InSegment s k u := by
  have hinside : t.env.remain ≠ 1 := by
    intro hlast
    have hremain := h.remain
    rw [hlast] at hremain
    exact absurd hremain (by simp)
  have hx := exec_envStep_of_ramps (s := respond none t) (h.ramps hramps)
  have henv := envRamp_inside (free := freeWords (respond none t)) (c := t.envCfg) hinside
  obtain ⟨hcfg, hstage, hbase, hdelta, hremain⟩ := h
  have hleft : (t.env.remain - 1).toNat = k + 1 := by bv_omega
  refine ⟨_, hx, ?_⟩
  rw [respond_env, respond_envCfg, henv]
  exact ⟨hcfg, hstage, hbase, hdelta, hleft⟩

/-- Fewer steps than a segment has left stay in it (40_envelope.md R118). -/
theorem performAll_envStep_inSegment {n k : Nat} (hramps : envHolds s.envCfg s.env = false)
    (hn : s.env.remain.toNat = k + n + 1) :
    ∃ t, performAll (commands n .envStep) s = .next t ∧ InSegment s k t :=
  performAll_commands_countdown (fun _ _ h => h.step hramps) n k s ⟨rfl, rfl, rfl, rfl, hn⟩

/-- The last step of a segment makes the transition (40_envelope.md R118). -/
theorem performAll_envStep_segment (hramps : envHolds s.envCfg s.env = false)
    (hpos : 1 ≤ s.env.remain.toNat) :
    ∃ t, performAll (commands s.env.remain.toNat .envStep) s = .next t ∧
      t.env.stage = nextStage s.env.stage := by
  obtain ⟨n, hn⟩ : ∃ n, s.env.remain.toNat = n + 1 := ⟨_, (Nat.succ_pred_eq_of_pos hpos).symm⟩
  obtain ⟨u, hu, hin⟩ := performAll_envStep_inSegment (n := n) (k := 0) hramps (by omega)
  have hlast : u.env.remain = 1 := BitVec.eq_of_toNat_eq hin.remain
  rw [hn, commands_add, performAll_append hu,
    performAll_commands_succ (exec_envStep_of_ramps (s := respond none u) (hin.ramps hramps))]
  refine ⟨_, rfl, ?_⟩
  rw [drawn_env, respond_env, envRamp_stage, if_pos hlast, hin.stage]

/-- A sound segment lasts its steps: fewer stay in it, and as many make the transition (40_envelope.md R118). -/
theorem performAll_envStep_le {n : Nat} (h : CoreInvariant s) (hramps : envHolds s.envCfg s.env = false)
    (hn : n ≤ s.env.remain.toNat) :
    ∃ t, performAll (commands n .envStep) s = .next t ∧
      (n < s.env.remain.toNat → InSegment s (s.env.remain.toNat - n - 1) t) ∧
      (n = s.env.remain.toNat → t.env.stage = nextStage s.env.stage) := by
  obtain ⟨⟨-, hlive, -⟩, -⟩ := h
  obtain ⟨hpos, -⟩ := hlive (not_envHolds_iff.1 hramps).1
  rcases Nat.lt_or_eq_of_le hn with hlt | rfl
  · obtain ⟨t, ht, hin⟩ := performAll_envStep_inSegment (n := n) (k := s.env.remain.toNat - n - 1)
      hramps (by omega)
    exact ⟨t, ht, fun _ => hin, fun heq => absurd heq (Nat.ne_of_lt hlt)⟩
  · obtain ⟨t, ht, hstage⟩ := performAll_envStep_segment hramps hpos
    exact ⟨t, ht, fun hlt => absurd hlt (Nat.lt_irrefl _), fun _ => hstage⟩

/-- Settles O39, by the steps inside the segment and its last. -/
theorem segmentLastsItsSteps : Obligations.SegmentLastsItsSteps := by
  intro s n h hramps hn
  obtain ⟨t, ht, hinside, hlast⟩ := performAll_envStep_le h hramps hn
  refine ⟨t, ht, fun hlt => ?_, hlast⟩
  obtain ⟨-, hstage, -, -, hremain⟩ := hinside hlt
  exact ⟨hstage, by omega⟩

end Lengths

section Cycle

variable {free : Nat → Word} {c : EnvConfig} {r : EnvRuntime} {s t : State}

/-- How many steps an ungated envelope is away from Idle (40_envelope.md R118). -/
def stepsToIdle (c : EnvConfig) (r : EnvRuntime) : Nat :=
  match r.stage with
  | .idle => 0
  | .attack => r.remain.toNat + c.decDur.toNat + c.susDur.toNat + c.relDur.toNat
  | .decay => r.remain.toNat + c.susDur.toNat + c.relDur.toNat
  | .sustain => r.remain.toNat + c.relDur.toNat
  | .release => r.remain.toNat

/-- A segment under way has a step left, so only Idle is no step away from Idle. -/
theorem stepsToIdle_eq_zero_iff (h : EnvRuntimeSound r) : stepsToIdle c r = 0 ↔ r.stage = .idle := by
  constructor
  · intro h0
    by_contra hidle
    obtain ⟨-, hlive, -⟩ := h
    obtain ⟨hpos, -⟩ := hlive hidle
    cases hstage : r.stage with
    | idle => exact hidle hstage
    | attack | decay | sustain | release =>
      simp only [stepsToIdle, hstage] at h0
      omega
  · intro hidle
    simp [stepsToIdle, hidle]

/-- A ramping step takes one step of the cycle (40_envelope.md R118). -/
theorem stepsToIdle_envRamp (hidle : r.stage ≠ .idle) (hpos : 1 ≤ r.remain.toNat) :
    stepsToIdle c (envRamp free c r) + 1 = stepsToIdle c r := by
  by_cases hlast : r.remain = 1
  · have hone : r.remain.toNat = 1 := by rw [hlast]; rfl
    rw [envRamp_end hlast]
    cases hstage : r.stage with
    | idle => exact absurd hstage hidle
    | attack | decay | sustain | release =>
      simp only [stepsToIdle, enterNext, hstage]
      omega
  · have hleft : (r.remain - 1).toNat + 1 = r.remain.toNat := by bv_omega
    rw [envRamp_inside hlast]
    cases hstage : r.stage with
    | idle => exact absurd hstage hidle
    | attack | decay | sustain | release =>
      simp only [stepsToIdle, hstage]
      omega

/-- A sound, ungated envelope of configuration `c` that is `k` steps away from Idle. -/
structure UngatedCycle (c : EnvConfig) (k : Nat) (t : State) : Prop where
  sound : CoreInvariant t
  envCfg : t.envCfg = c
  left : stepsToIdle c t.env = k

/-- A step of an ungated cycle is one step of it. -/
theorem UngatedCycle.step {k : Nat} (hgated : c.gated = false) (h : UngatedCycle c (k + 1) s) :
    ∃ t, exec .envStep (respond none s) = .next t ∧ UngatedCycle c k t := by
  obtain ⟨hsound, hcfg, hleft⟩ := h
  obtain ⟨henv, -⟩ := coreInvariant_iff.1 hsound
  have hidle : s.env.stage ≠ .idle := by
    intro hst
    rw [(stepsToIdle_eq_zero_iff henv).2 hst] at hleft
    cases hleft
  have ⟨_, hlive, _⟩ := henv
  obtain ⟨hpos, -⟩ := hlive hidle
  have hramps : envHolds s.envCfg s.env = false :=
    not_envHolds_iff.2 ⟨hidle, by simp [hcfg, hgated]⟩
  have hx := exec_envStep_of_ramps (s := respond none s) hramps
  refine ⟨_, hx, (Effect.command hx).coreInvariant (coreInvariant_respond hsound), hcfg, ?_⟩
  have hone := stepsToIdle_envRamp (free := freeWords (respond none s)) (c := c) hidle hpos
  rw [drawn_env, respond_env, respond_envCfg, hcfg]
  exact Nat.succ.inj (hone.trans hleft)

/-- `env.gate.on` starts a whole cycle (40_envelope.md R113). -/
theorem ungatedCycle_gateOn (h : CoreInvariant s) : ∃ t, exec .envGateOn (respond none s) = .next t ∧
    UngatedCycle s.envCfg (s.envCfg.atkDur.toNat + s.envCfg.decDur.toNat + s.envCfg.susDur.toNat +
      s.envCfg.relDur.toNat) t := by
  have hx := exec_envGateOn (respond none s)
  exact ⟨_, hx, (Effect.command hx).coreInvariant (coreInvariant_respond h), rfl, rfl⟩

/-- Settles O40: each step takes one from the sum, and Idle is where nothing is left. -/
theorem ungatedCycleReturnsToIdle : Obligations.UngatedCycleReturnsToIdle := by
  intro s n h _ hgated hn
  obtain ⟨u, hu, hcycle⟩ := ungatedCycle_gateOn h
  obtain ⟨k, hk⟩ := Nat.exists_eq_add_of_le' hn
  rw [hk] at hcycle ⊢
  obtain ⟨t, ht, hleft⟩ := performAll_commands_countdown (fun _ _ h => h.step hgated) n k u hcycle
  obtain ⟨henv, -⟩ := coreInvariant_iff.1 hleft.sound
  refine ⟨t, (performAll_command_append hu).trans ht, ?_⟩
  rw [← stepsToIdle_eq_zero_iff (c := s.envCfg) henv, hleft.left]
  omega

end Cycle

section Gates

variable {s : State} {free free' : Nat → Word} {c : EnvConfig} {r : EnvRuntime}

/-- `env.gate.off` of this hardware starts a Release of `ENV_REL_DUR` steps (40_envelope.md R114). -/
theorem release_of_gateOff (h : CoreInvariant s) (hbefore : BeforeRelease s.env.stage) :
    ∃ u, exec .envGateOff (respond none s) = .next u ∧ CoreInvariant u ∧
      (u.env.stage = .release ∧ u.env.remain = s.envCfg.relDur) ∧
      u.env.base = s.env.amp ∧ u.env.delta = fneg s.env.amp := by
  have hx := exec_envGateOff_of_before (s := respond none s) hbefore
  exact ⟨_, hx, (Effect.command hx).coreInvariant (coreInvariant_respond h), ⟨rfl, rfl⟩, rfl, rfl⟩

/-- Settles O41: the Release is a segment that does not hold, and the invariant says what Idle is. -/
theorem earlyReleaseEndsInIdle : Obligations.EarlyReleaseEndsInIdle := by
  intro s n h hbefore hn
  obtain ⟨u, hu, hsound, ⟨hstage, hremain⟩, hbase, hdelta⟩ := release_of_gateOff h hbefore
  rw [performAll_command_append hu]
  rw [← hremain] at hn ⊢
  have hramps : envHolds u.envCfg u.env = false := not_envHolds_iff.2 (by simp [hstage])
  obtain ⟨t, ht, hinside, hlast⟩ := performAll_envStep_le hsound hramps hn
  refine ⟨t, ht, fun hlt => ?_, fun heq => ?_⟩
  · obtain ⟨-, hstage', hbase', hdelta', -⟩ := hinside hlt
    exact ⟨hstage'.trans hstage, hbase'.trans hbase, hdelta'.trans hdelta⟩
  · have hidle : t.env.stage = .idle := by rw [hlast heq, hstage]; rfl
    obtain ⟨⟨hrest, -⟩, -⟩ := coreInvariant_performAll ht hsound
    obtain ⟨-, -, -, -, -, -, hamp⟩ := hrest hidle
    exact ⟨hidle, hamp⟩

/-- From an amplitude toward 1.0 the sample does not fall: the product of R116 is not below zero. -/
theorem fle_clamp01_rise {w w' w'' : Word} {a p : F64} (ha : InUnit a) (hp : isFinite p = true)
    (hp0 : fle posZero p = true) :
    fle a (clamp01 (fadd w a (fmul w' (fsub w'' one64 a) p))) = true := by
  have hafin := isFinite_of_inUnit ha
  have hsmall : AtMost 1 (fsub w'' one64 a) := AtMost.fsub_of_inUnit inUnit_one64 ha
  have hdfin : isFinite (fsub w'' one64 a) = true := hsmall.isFinite (by decide)
  have hd0 : 0 ≤ fvalue (fsub w'' one64 a) := by
    have hle := (fle_iff.1 ha.2).2.2
    rw [fsub_of_finite isFinite_one64 hafin, ← fvalue_posZero]
    exact le_fvalue_roundInt isNaN_posZero (by rw [fvalue_posZero]; omega)
  have hprod0 := fvalue_fmul_nonneg (free := w') hdfin hp hd0 (fvalue_nonneg_of_fle hp0)
  have hprod : isFinite (fmul w' (fsub w'' one64 a) p) = true := by
    have hle : fmag (fmul w' (fsub w'' one64 a) p) ≤ fmag p := by
      apply fmag_fmul_le hdfin hp
      rw [Nat.mul_comm (unitsOf (fmag p))]
      exact Nat.mul_le_mul_right _ (by simpa [AtMost] using hsmall)
    exact isFinite_iff.2 (Nat.lt_of_le_of_lt hle (isFinite_iff.1 hp))
  have hnum := isNaN_of_isFinite hafin
  exact fle_clamp01 ha (fle_iff.2 ⟨hnum, isNaN_fadd_of_finite hafin hprod,
    le_fadd hafin hprod hnum (by omega)⟩)

/-- The first sample after `env.gate.on`, whose ramp is one increment (40_envelope.md R125). -/
theorem envRamp_gateOn_out (hamp : InUnit r.amp) (hdur : c.atkDur ≠ 0) :
    (envRamp free' c (gateOn free c r)).out =
      clamp01 (fadd 0 r.amp (fmul 0 (fsub 0 one64 r.amp)
        (powFn (fdiv 0 one64 (f64OfNat c.atkDur.toNat)) c.atkShape))) := by
  obtain ⟨hfin, hsign, -⟩ := increment_facts (free := 0) hdur
  rw [increment_eq_fdiv] at hfin hsign
  rw [envRamp_out, envSample_eq, gateOn_eq]
  simp only [posZero_fadd hfin hsign, fsub_free 0 isFinite_one64 (isFinite_of_inUnit hamp)]

/-- The first ramp of an Attack is in (0, 1], so that `powFn` of it is finite (40_envelope.md R124; log 4). -/
theorem powFn_increment {dur : Count} {shape : F64} (hdur : dur ≠ 0) (hshape : legalShape shape = true) :
    isFinite (powFn (fdiv 0 one64 (f64OfNat dur.toNat)) shape) = true ∧
      fle posZero (powFn (fdiv 0 one64 (f64OfNat dur.toNat)) shape) = true := by
  obtain ⟨hfin, -, hpos, hle⟩ := increment_facts (free := 0) hdur
  rw [increment_eq_fdiv] at hfin hpos hle
  have hnum := isNaN_of_isFinite hfin
  have hge : fle posZero (fdiv 0 one64 (f64OfNat dur.toNat)) = true :=
    fle_iff.2 ⟨isNaN_posZero, hnum, by rw [fvalue_posZero]; exact Int.le_of_lt hpos⟩
  obtain ⟨-, hpow0, hpow⟩ := powFn_facts (powDomain_iff.2 ⟨hfin, hge, legalShape_iff.1 hshape⟩)
  refine ⟨hpow.resolve_right fun hgt => ?_, hpow0⟩
  exact absurd (flt_iff.1 hgt).2.2 (by omega)

/-- Settles O42, by the first sample and its rise. -/
theorem retriggerDoesNotJumpDown : Obligations.RetriggerDoesNotJumpDown := by
  intro s h
  obtain ⟨⟨-, -, ⟨-, ⟨hamp, -⟩, -⟩, ⟨hdur, -⟩, ⟨hshape, -⟩, -⟩, -⟩ := h
  obtain ⟨u, hu⟩ : ∃ u, u = drawn { respond none s with
    env := gateOn (freeWords s) s.envCfg s.env } := ⟨_, rfl⟩
  have hx : exec .envGateOn (respond none s) = .next u := by rw [exec_envGateOn, hu]; rfl
  have henv : u.env = gateOn (freeWords s) s.envCfg s.env := by rw [hu, drawn_env]
  have hcfg : u.envCfg = s.envCfg := by rw [hu]; rfl
  have hramps : envHolds u.envCfg u.env = false := by rw [henv]; rfl
  obtain ⟨hfin, hpow0⟩ := powFn_increment hdur hshape
  have hrun := performAll_commands_succ (n := 0) (exec_envStep_of_ramps (s := respond none u) hramps)
  refine ⟨_, (performAll_command_append hx).trans hrun, ?_⟩
  rw [drawn_env, respond_env, respond_envCfg, henv, hcfg, envRamp_gateOn_out hamp hdur]
  exact ⟨rfl, fle_clamp01_rise hamp hfin hpow0⟩

end Gates

end Sys2Proof.Machine
end

section
/-! The fold of a phase (41_oscillator.md R162, R163): from zero up it is exact, it answers 1.0 for the operands
next below zero alone, and it is what the source's two loops end with. What makes the loops' steps exact is the
grid of the encodings: from 2^52 units on, a magnitude is a whole number of last places. -/

namespace Sys2Proof.Machine

section Grid

variable {b n e : Nat}

/-- A magnitude of exponent field 1 or more is `n` last places of exponent `e`. -/
theorem exists_scaled (h : 2 ^ 52 ≤ b) :
    ∃ e n, b = e * 2 ^ 52 + n ∧ 2 ^ 52 ≤ n ∧ n < 2 ^ 53 ∧ unitsOf b = n * 2 ^ e := by
  refine ⟨b / 2 ^ 52 - 1, b % 2 ^ 52 + 2 ^ 52, by omega, by omega, by omega, ?_⟩
  rw [← unitsOf_scaled (by omega) (Or.inr (by omega))]
  congr 1
  omega

/-- A number of at most 53 bits is an encoded magnitude at every exponent. -/
theorem exists_unitsOf_scaled (e : Nat) (hn : n < 2 ^ 53) : ∃ b, unitsOf b = n * 2 ^ e := by
  induction e generalizing n with
  | zero => exact ⟨n, by simpa using unitsOf_scaled (e := 0) (Nat.le_of_lt hn) (Or.inl rfl)⟩
  | succ e ih =>
    rcases Nat.lt_or_ge n (2 ^ 52) with hlt | hge
    · obtain ⟨b, hb⟩ := ih (n := 2 * n) (by omega)
      exact ⟨b, by rw [hb, Nat.pow_succ]; ring⟩
    · exact ⟨_, unitsOf_scaled (Nat.le_of_lt hn) (Or.inr hge)⟩

/-- 1.0 is a whole number of last places at every exponent up to 1074. -/
theorem unitsPerOne_scaled {e : Nat} (he : e ≤ 1074) : unitsPerOne = 2 ^ (1074 - e) * 2 ^ e := by
  rw [unitsPerOne_eq, ← Nat.pow_add, Nat.sub_add_cancel he]

theorem unitsPerOne_le_two_pow_iff : unitsPerOne ≤ 2 ^ e ↔ 1074 ≤ e := by
  rw [unitsPerOne_eq]
  generalize 1074 = k
  exact Nat.pow_le_pow_iff_right (by decide)

theorem fmag_one64 : fmag one64 = 1022 * 2 ^ 52 + 2 ^ 52 := by decide

/-- A magnitude of 1.0 or more is a whole number of last places of 1.0 at least. -/
theorem exists_scaled_of_one_le (h : unitsPerOne ≤ unitsOf b) :
    ∃ e n, 1022 ≤ e ∧ b = e * 2 ^ 52 + n ∧ 2 ^ 52 ≤ n ∧ n < 2 ^ 53 ∧ unitsOf b = n * 2 ^ e := by
  rw [← unitsOf_one64, unitsOf_le_iff, fmag_one64] at h
  obtain ⟨e, n, hb, hn, hn', hu⟩ := exists_scaled (b := b) (by omega)
  exact ⟨e, n, by omega, hb, hn, hn', hu⟩

/-- Between 1.0 and 2^53 the magnitude less 1.0 is an encoded one: the loops' steps are exact. -/
theorem exists_unitsOf_sub_one (h : unitsPerOne ≤ unitsOf b) (hlt : unitsOf b < 2 ^ 53 * unitsPerOne) :
    ∃ c, unitsOf c = unitsOf b - unitsPerOne := by
  obtain ⟨e, n, -, -, hn, hn', hu⟩ := exists_scaled_of_one_le h
  have he : e ≤ 1074 := by
    by_contra hgt
    obtain ⟨k, rfl⟩ : ∃ k, e = k + 1 := ⟨e - 1, by omega⟩
    have hle : unitsPerOne ≤ 2 ^ k := unitsPerOne_le_two_pow_iff.2 (by omega)
    have hmul : 2 ^ 52 * (2 ^ k * 2) ≤ n * 2 ^ (k + 1) := Nat.mul_le_mul_right _ hn
    omega
  obtain ⟨c, hc⟩ := exists_unitsOf_scaled e (n := n - 2 ^ (1074 - e))
    (Nat.lt_of_le_of_lt (Nat.sub_le _ _) hn')
  exact ⟨c, by rw [hc, hu, unitsPerOne_scaled he, Nat.sub_mul]⟩

/-- From 2^53 on a magnitude is a multiple of 1.0. -/
theorem unitsPerOne_dvd_unitsOf (h : 2 ^ 53 * unitsPerOne ≤ unitsOf b) : unitsPerOne ∣ unitsOf b := by
  have hone : unitsPerOne ≤ unitsOf b := Nat.le_trans (Nat.le_mul_of_pos_left _ (by decide)) h
  obtain ⟨e, n, -, -, -, hn', hu⟩ := exists_scaled_of_one_le hone
  have he : 1074 ≤ e := by
    by_contra hlt
    have hpow : 2 ^ e ≤ unitsPerOne :=
      Nat.le_of_not_le fun hle => hlt (unitsPerOne_le_two_pow_iff.1 hle)
    have hmul : n * 2 ^ e < 2 ^ 53 * unitsPerOne :=
      Nat.mul_lt_mul_of_lt_of_le hn' hpow unitsPerOne_pos
    omega
  rw [hu, unitsPerOne_eq]
  generalize 1074 = k at he ⊢
  exact (Nat.pow_dvd_pow 2 he).mul_left n

/-- A magnitude of 1.0 or more is a multiple of the last place of 1.0. -/
theorem two_pow_dvd_unitsOf (h : unitsPerOne ≤ unitsOf b) : 2 ^ 1022 ∣ unitsOf b := by
  obtain ⟨e, n, he, -, -, -, hu⟩ := exists_scaled_of_one_le h
  rw [hu]
  generalize 1022 = k at he ⊢
  exact (Nat.pow_dvd_pow 2 he).mul_left n

end Grid

section NearOne

/-- Half the gap between 1.0 and the number below it, `2^-54` (41_oscillator.md R163). -/
abbrev halfGap : F64 := 0x3C90000000000000

theorem unitsOf_halfGap : unitsOf (fmag one64 - 1) + 2 * unitsOf (fmag halfGap) = unitsPerOne := by
  decide +kernel

/-- A magnitude of at most 1.0 rounds to 1.0 exactly where it is no further from it than half the gap below
1.0: the tie goes to 1.0, the even one. -/
theorem roundUnits_eq_one_iff {n : Nat} (hn : n ≤ unitsPerOne) :
    roundUnits n 1 = fmag one64 ↔ unitsPerOne ≤ n + unitsOf (fmag halfGap) := by
  obtain ⟨p, hp⟩ : ∃ p, fmag one64 = p + 1 := ⟨fmag one64 - 1, by decide⟩
  have hgap := unitsOf_halfGap
  have hone := unitsOf_one64
  have hodd : (fmag one64 - 1) % 2 = 1 := by decide
  have hinf : fmag one64 ≤ infBits := by decide
  rw [hp] at hone hinf hgap hodd ⊢
  rw [Nat.add_sub_cancel] at hgap hodd
  rcases Nat.lt_or_eq_of_le hn with hlt | rfl
  · obtain ⟨c, hlo, hhi, hround⟩ := roundUnits_spec n Nat.one_pos
    simp only [Nat.mul_one] at hlo hhi hround
    have hcp : c < p + 1 := unitsOf_lt_iff.1 (by omega)
    rw [hround]
    generalize infBits = inf at hinf ⊢
    rcases Nat.lt_or_eq_of_le (Nat.lt_succ_iff.1 hcp) with hc | rfl
    · have hle : unitsOf (c + 1) ≤ unitsOf p := unitsOf_le_iff.2 hc
      split <;> omega
    · split <;> omega
  · have hexact := roundUnits_exact_one hinf
    rw [hone] at hexact
    omega

end NearOne

section Fold

variable {free : Word} {a b x : F64}

theorem flt_of_finite (ha : isFinite a = true) (hb : isFinite b = true) :
    flt a b = decide (fvalue a < fvalue b) := by
  simp [flt, isNaN_of_isFinite ha, isNaN_of_isFinite hb]

theorem fle_of_finite (ha : isFinite a = true) (hb : isFinite b = true) :
    fle a b = decide (fvalue a ≤ fvalue b) := by
  simp [fle, isNaN_of_isFinite ha, isNaN_of_isFinite hb]

theorem unitsPerOne_cast_pos : (0 : Int) < unitsPerOne := by exact_mod_cast unitsPerOne_pos

/-- The value of a number that is not below zero is its magnitude. -/
theorem fvalue_of_nonneg (h : 0 ≤ fvalue x) : fvalue x = unitsOf (fmag x) := by
  rw [← natAbs_fvalue]
  omega

theorem fvalue_of_neg (h : fvalue x < 0) : fvalue x = -(unitsOf (fmag x) : Int) := by
  rw [← natAbs_fvalue]
  omega

/-- Rounding is exact on a whole number of units that is an encoded magnitude. -/
theorem fvalue_roundInt_of_encoded {zn : Bool} {z : Int} {b : Nat} (hb : b ≤ infBits)
    (h : unitsOf b = z.natAbs) : fvalue (roundInt zn z) = z := by
  rw [fvalue_roundInt, ← h, roundUnits_exact_one hb]
  omega

/-- A number in [0, 1), not `-0.0`, is its own fraction. -/
theorem fracPart_of_lt_one (hx : isFinite x = true) (hs : fsign x = false)
    (hlt : fvalue x < unitsPerOne) : fracPart x = x := by
  have hge := fvalue_nonneg_of_fsign hs
  have hexact : fvalue (roundInt false (fvalue x)) = fvalue x :=
    fvalue_roundInt_exact (isNaN_of_isFinite hx)
  rw [fracPart, Int.emod_eq_of_lt hge hlt]
  refine eq_of_fvalue ?_ hexact
  rw [hs, fsign_roundInt_false rfl (by rwa [hexact])]

/-- The fold is the rounded fraction, but for `-0.0` (41_oscillator.md R162). -/
theorem fold_eq_fracPart (hx : isFinite x = true) (h0 : 0 ≤ fvalue x → fsign x = false) :
    fold free x = fracPart x := by
  rw [fold_of_finite hx]
  split
  next h =>
    have hlt : fvalue x < unitsPerOne := by simpa [flt_of_finite, hx] using h.2
    exact (fracPart_of_lt_one hx (h0 (fvalue_nonneg_of_fle h.1)) hlt).symm
  next => rfl

/-- From zero up the fold is exact (41_oscillator.md R162). -/
theorem fvalue_fold (hx : isFinite x = true) (h0 : 0 ≤ fvalue x) :
    fvalue (fold free x) = fvalue x % (unitsPerOne : Int) := by
  have hval := fvalue_of_nonneg h0
  rw [fold_of_finite hx]
  simp only [fle_of_finite, flt_of_finite, hx, isFinite_posZero, isFinite_one64, fvalue_posZero,
    fvalue_one64, decide_eq_true_eq]
  split
  next h => exact (Int.emod_eq_of_lt h.1 h.2).symm
  next h =>
    obtain ⟨c, hc⟩ := mod_unitsPerOne_representable (fmag x) (by omega)
    have hle : unitsOf c ≤ unitsOf (fmag x) := hc ▸ Nat.mod_le _ _
    have hfin : c ≤ infBits := by
      have := isFinite_iff.1 hx
      have := unitsOf_le_iff.1 hle
      omega
    apply fvalue_roundInt_of_encoded hfin
    rw [hc, hval, ← Int.natCast_mod, Int.natAbs_natCast]

/-- An operand of at least 1.0 below zero has no fold within half the gap below 1.0. -/
theorem emod_add_halfGap_lt (hneg : fvalue x < 0) (h : unitsPerOne ≤ unitsOf (fmag x)) :
    fvalue x % (unitsPerOne : Int) + unitsOf (fmag halfGap) < unitsPerOne := by
  have hplace : unitsOf (fmag halfGap) < 2 ^ 1022 := by decide +kernel
  have hdvd := two_pow_dvd_unitsOf h
  have hone : 2 ^ 1022 ∣ unitsPerOne := by
    have := two_pow_dvd_unitsOf (b := fmag one64) (by rw [unitsOf_one64])
    rwa [unitsOf_one64] at this
  generalize 2 ^ 1022 = place at hplace hdvd hone
  have hrem : (place : Int) ∣ fvalue x % unitsPerOne := by
    apply Int.dvd_of_emod_eq_zero
    rw [Int.emod_emod_of_dvd _ (by exact_mod_cast hone), fvalue_of_neg hneg]
    exact Int.emod_eq_zero_of_dvd (Int.dvd_neg.2 (by exact_mod_cast hdvd))
  have hlt := Int.emod_lt_of_pos (fvalue x) unitsPerOne_cast_pos
  have hroom : (place : Int) ≤ unitsPerOne - fvalue x % unitsPerOne :=
    Int.le_of_dvd (by omega) (Int.dvd_sub (by exact_mod_cast hone) hrem)
  omega

/-- The fraction of a number below zero rounds to 1.0 exactly from `-2^-54` on. -/
theorem fracPart_eq_one_iff (hneg : fvalue x < 0) :
    fracPart x = one64 ↔ unitsOf (fmag x) ≤ unitsOf (fmag halfGap) := by
  have hlo := Int.emod_nonneg (fvalue x) (Int.ne_of_gt unitsPerOne_cast_pos)
  have hhi := Int.emod_lt_of_pos (fvalue x) unitsPerOne_cast_pos
  have hmag : fracPart x = one64 ↔
      roundUnits (fvalue x % unitsPerOne).natAbs 1 = fmag one64 := by
    constructor
    · intro h
      rw [← h, fracPart, fmag_roundInt]
    · intro h
      refine eq_of_fsign_fmag (fsign_roundInt_false rfl ?_) (by rw [fracPart, fmag_roundInt, h])
      exact fvalue_nonneg_of_fle (inUnit_fracPart x).1
  rw [hmag, roundUnits_eq_one_iff (by omega)]
  have hgap := unitsOf_halfGap
  rcases Nat.lt_or_ge (unitsOf (fmag x)) unitsPerOne with hlt | hge
  · have hval := fvalue_of_neg hneg
    have hrem : fvalue x % unitsPerOne = fvalue x + unitsPerOne := by
      rw [← Int.add_emod_right, Int.emod_eq_of_lt (by omega) (by omega)]
    omega
  · have hfar := emod_add_halfGap_lt hneg hge
    omega

theorem halfGap_interval (hx : isFinite x = true) :
    (fle (fneg halfGap) x = true ∧ flt x posZero = true) ↔
      fvalue x < 0 ∧ unitsOf (fmag x) ≤ unitsOf (fmag halfGap) := by
  have hval : fvalue (fneg halfGap) = -(unitsOf (fmag halfGap) : Int) := rfl
  have hfin : isFinite (fneg halfGap) = true := by decide
  have habs := natAbs_fvalue x
  simp only [fle_of_finite hfin hx, flt_of_finite hx isFinite_posZero, fvalue_posZero, hval,
    decide_eq_true_eq]
  omega

/-- The fold is 1.0 exactly for an operand from `-2^-54` to below zero (41_oscillator.md R163). -/
theorem fold_eq_one_iff (hx : isFinite x = true) :
    fold free x = one64 ↔ fle (fneg halfGap) x = true ∧ flt x posZero = true := by
  rw [halfGap_interval hx]
  rcases Int.lt_or_le (fvalue x) 0 with hneg | h0
  · rw [fold_eq_fracPart hx (by omega), fracPart_eq_one_iff hneg]
    omega
  · have hlt : flt (fold free x) one64 = true := fold_lt_one hx (by simpa [fle_of_finite, hx] using h0)
    have hne : fold free x ≠ one64 := fun h => absurd (h ▸ hlt) (by decide +kernel)
    simp only [hne, false_iff]
    omega

/-- Settles O45, by the sign of the operand. -/
theorem foldBringsIntoUnit : Obligations.FoldBringsIntoUnit := by
  intro x free hx
  exact ⟨inUnit_fold hx, fun h0 => ⟨fold_lt_one hx (by simpa [fle_of_finite, hx] using h0),
    fvalue_fold hx h0⟩, fold_eq_one_iff hx⟩

/-- From 2^53 on the fold is `+0.0`: such a number is whole (41_oscillator.md R163). -/
theorem fold_of_whole (hx : isFinite x = true) (h : 2 ^ 53 * unitsPerOne ≤ unitsOf (fmag x)) :
    fold free x = posZero := by
  have hdvd : (unitsPerOne : Int) ∣ fvalue x := by
    rw [Int.natCast_dvd, natAbs_fvalue]
    exact unitsPerOne_dvd_unitsOf h
  have hfrac : fracPart x = posZero := by
    rw [fracPart, Int.emod_eq_zero_of_dvd hdvd]
    decide
  have hpos := unitsPerOne_pos
  have habs := natAbs_fvalue x
  rw [fold_of_finite hx, if_neg, hfrac]
  simp only [fle_of_finite, flt_of_finite, hx, isFinite_posZero, isFinite_one64, fvalue_posZero,
    fvalue_one64, decide_eq_true_eq]
  omega

end Fold

section Loops

variable {x : F64}

theorem loopDown_of_lt_one {n : Nat} (hx : isFinite x = true) (h : fvalue x < unitsPerOne) :
    loopDown (n + 1) x = some x := by
  simp [loopDown, fle_of_finite, hx, h]

theorem loopDown_of_one_le {n : Nat} (hx : isFinite x = true) (h : (unitsPerOne : Int) ≤ fvalue x) :
    loopDown (n + 1) x = loopDown n (fsub 0 x one64) := by
  simp [loopDown, fle_of_finite, hx, h]

theorem loopUp_of_nonneg {n : Nat} (hx : isFinite x = true) (h : 0 ≤ fvalue x) :
    loopUp (n + 1) x = some x := by
  simp [loopUp, flt_of_finite, hx, h]

theorem loopUp_of_neg {n : Nat} (hx : isFinite x = true) (h : fvalue x < 0) :
    loopUp (n + 1) x = loopUp n (fadd 0 x one64) := by
  simp [loopUp, flt_of_finite, hx, h]

theorem loopUp_fracPart (n : Nat) (x : F64) : loopUp (n + 1) (fracPart x) = some (fracPart x) :=
  loopUp_of_nonneg (isFinite_of_inUnit (inUnit_fracPart x)) (fvalue_nonneg_of_fle (inUnit_fracPart x).1)

/-- Rounding is exact where the loops come from a magnitude of 1.0 to below 2^53 and go one nearer to zero. -/
theorem roundInt_one_nearer {zn : Bool} {z : Int} (hx : isFinite x = true)
    (h1 : unitsPerOne ≤ unitsOf (fmag x)) (h53 : unitsOf (fmag x) < 2 ^ 53 * unitsPerOne)
    (hz : z.natAbs = unitsOf (fmag x) - unitsPerOne) :
    fvalue (roundInt zn z) = z ∧ isFinite (roundInt zn z) = true := by
  obtain ⟨c, hc⟩ := exists_unitsOf_sub_one h1 h53
  have hcx : c ≤ fmag x := unitsOf_le_iff.1 (by omega)
  have hinf := isFinite_iff.1 hx
  exact ⟨fvalue_roundInt_of_encoded (b := c) (by omega) (by omega), isFinite_roundInt hx (by omega)⟩

/-- The subtracting loop ends with the fraction of its operand. -/
theorem loopDown_eq_fracPart {n : Nat} (hx : isFinite x = true) (hs : fsign x = false)
    (h53 : unitsOf (fmag x) < 2 ^ 53 * unitsPerOne) (hn : fvalue x < (n + 1) * unitsPerOne) :
    loopDown (n + 1) x = some (fracPart x) := by
  induction n generalizing x with
  | zero =>
    have hlt : fvalue x < unitsPerOne := by simpa using hn
    rw [loopDown_of_lt_one hx hlt, fracPart_of_lt_one hx hs hlt]
  | succ n ih =>
    rcases Int.lt_or_le (fvalue x) unitsPerOne with hlt | hge
    · rw [loopDown_of_lt_one hx hlt, fracPart_of_lt_one hx hs hlt]
    · have hval := fvalue_of_nonneg (fvalue_nonneg_of_fsign hs)
      have hsub : fsub 0 x one64 = roundInt false (fvalue x - unitsPerOne) := by
        rw [fsub_of_finite hx isFinite_one64, hs, fvalue_one64, Bool.false_and]
      obtain ⟨hv, hf⟩ := roundInt_one_nearer (zn := false) (z := fvalue x - unitsPerOne) hx
        (by omega) h53 (by omega)
      rw [loopDown_of_one_le hx hge, hsub, ih hf, fracPart, hv, Int.sub_emod_right]
      · rfl
      · exact fsign_roundInt_false rfl (by omega)
      · rw [← natAbs_fvalue]
        omega
      · rw [hv]
        push_cast at hn
        linarith

theorem fadd_one_eq (hx : isFinite x = true) :
    fadd 0 x one64 = roundInt false (fvalue x + unitsPerOne) := by
  have hs : fsign one64 = false := by decide
  rw [fadd_of_finite hx isFinite_one64, fvalue_one64, hs, Bool.and_false]

/-- The last addition rounds as the fold does. -/
theorem loopUp_of_ge_neg_one {n : Nat} (hx : isFinite x = true) (hneg : fvalue x < 0)
    (hge : -(unitsPerOne : Int) ≤ fvalue x) : loopUp (n + 2) x = some (fracPart x) := by
  have hsum : fadd 0 x one64 = fracPart x := by
    rw [fadd_one_eq hx, fracPart, ← Int.add_emod_right, Int.emod_eq_of_lt (by omega) (by omega)]
  rw [loopUp_of_neg hx hneg, hsum, loopUp_fracPart]

/-- The adding loop ends with the fraction of its operand: only its last addition rounds. -/
theorem loopUp_eq_fracPart {n : Nat} (hx : isFinite x = true) (hneg : fvalue x < 0)
    (h53 : unitsOf (fmag x) < 2 ^ 53 * unitsPerOne) (hn : -((n + 1) * unitsPerOne : Int) ≤ fvalue x) :
    loopUp (n + 2) x = some (fracPart x) := by
  induction n generalizing x with
  | zero => exact loopUp_of_ge_neg_one hx hneg (by simpa using hn)
  | succ n ih =>
    rcases Int.lt_or_le (fvalue x) (-unitsPerOne) with hlt | hge
    · have hval := fvalue_of_neg hneg
      obtain ⟨hv, hf⟩ := roundInt_one_nearer (zn := false) (z := fvalue x + unitsPerOne) hx
        (by omega) h53 (by omega)
      rw [loopUp_of_neg hx hneg, fadd_one_eq hx, ih hf, fracPart, hv, Int.add_emod_right]
      · rfl
      · omega
      · rw [← natAbs_fvalue]
        omega
      · rw [hv]
        push_cast at hn
        linarith
    · exact loopUp_of_ge_neg_one hx hneg hge

/-- Both loops leave a number in [0, 1) as it is, `-0.0` too. -/
theorem sourceFold_of_lt_one {n : Nat} (hx : isFinite x = true) (h0 : 0 ≤ fvalue x)
    (hlt : fvalue x < unitsPerOne) : sourceFold (n + 1) x = some x := by
  rw [sourceFold, loopDown_of_lt_one hx hlt, Option.bind_some, loopUp_of_nonneg hx h0]

/-- Below 2^53 the source's loops end with the fold; a number of tests beyond the operand's units is enough. -/
theorem sourceFold_eq_fold {free : Word} (hx : isFinite x = true)
    (h53 : unitsOf (fmag x) < 2 ^ 53 * unitsPerOne) :
    sourceFold (unitsOf (fmag x) + 2) x = some (fold free x) := by
  have hmul : unitsOf (fmag x) ≤ unitsOf (fmag x) * unitsPerOne :=
    Nat.le_mul_of_pos_right _ unitsPerOne_pos
  have hpos := unitsPerOne_pos
  rcases Int.lt_or_le (fvalue x) 0 with hneg | h0
  · rw [fold_eq_fracPart hx (by omega), sourceFold, loopDown_of_lt_one hx (by omega), Option.bind_some]
    apply loopUp_eq_fracPart hx hneg h53
    have := fvalue_of_neg hneg
    push_cast [Int.add_mul]
    omega
  rcases Int.lt_or_le (fvalue x) unitsPerOne with hlt | hge
  · have hin : fle posZero x = true ∧ flt x one64 = true := by
      simp [fle_of_finite, flt_of_finite, hx, h0, hlt]
    rw [fold_of_finite hx, if_pos hin]
    exact sourceFold_of_lt_one hx h0 hlt
  · have hs := fsign_eq_false_of_pos (x := x) (by omega)
    rw [fold_eq_fracPart hx fun _ => hs, sourceFold, loopDown_eq_fracPart hx hs h53, Option.bind_some]
    · exact loopUp_fracPart _ x
    · have := fvalue_of_nonneg h0
      push_cast [Int.add_mul]
      omega

theorem fvalue_two_pow_53 : fvalue 0x4340000000000000 = 2 ^ 53 * unitsPerOne := by decide +kernel

theorem fvalue_fabs (x : F64) : fvalue (fabs x) = unitsOf (fmag x) := by simp [fvalue]

/-- Settles O46: the loops' steps are exact up to their last, and from 2^53 on every number is whole. -/
theorem foldIsTheSourcesLoop : Obligations.FoldIsTheSourcesLoop := by
  intro x free hx
  constructor
  · intro h
    have hlt := (flt_iff.1 h).2.2
    rw [fvalue_two_pow_53, fvalue_fabs] at hlt
    exact ⟨_, sourceFold_eq_fold hx (by exact_mod_cast hlt)⟩
  · intro h
    have hle := (fle_iff.1 h).2.2
    rw [fvalue_two_pow_53, fvalue_fabs] at hle
    exact fold_of_whole hx (by exact_mod_cast hle)

end Loops

end Sys2Proof.Machine
end

section
/-! The oscillator's formulas (41_oscillator.md R161 to R173): a free word shows in a NaN alone, so that outside
Triangle mode a sample is the same for all of them; the increment, the windows of `polyBlep`, and one sample of
each mode. -/

namespace Sys2Proof.Machine

section FreeWords

variable {free free' : Word} {a a' b b' : F64}

/-- The free words that the statements write: all of them 0. -/
abbrev zeroWords : Nat → Word := fun _ => 0

theorem isNaN_fmul_of_isNaN_right (h : isNaN b = true) : isNaN (fmul free a b) = true := by
  simp [fmul, h]

theorem sameReal_fadd_congr (ha : SameReal a a') (hb : SameReal b b') :
    SameReal (fadd free a b) (fadd free' a' b') := by
  rcases ha with rfl | ⟨ha, ha'⟩
  · exact sameReal_fadd hb
  · exact .inr ⟨by simp [fadd, ha], by simp [fadd, ha']⟩

theorem sameReal_fneg (h : SameReal a a') : SameReal (fneg a) (fneg a') := by
  rcases h with rfl | h
  · exact .inl rfl
  · exact .inr (by simpa using h)

theorem sameReal_fsub_congr (ha : SameReal a a') (hb : SameReal b b') :
    SameReal (fsub free a b) (fsub free' a' b') := sameReal_fadd_congr ha (sameReal_fneg hb)

theorem sameReal_fmul_congr (ha : SameReal a a') (hb : SameReal b b') :
    SameReal (fmul free a b) (fmul free' a' b') := by
  rcases ha with rfl | ⟨ha, ha'⟩
  · rcases hb with rfl | ⟨hb, hb'⟩
    · exact sameReal_fmul
    · exact .inr ⟨isNaN_fmul_of_isNaN_right hb, isNaN_fmul_of_isNaN_right hb'⟩
  · exact .inr ⟨by simp [fmul, ha], by simp [fmul, ha']⟩

/-- A quotient depends on the free word as far as it is a NaN, and on a NaN dividend only for being one. -/
theorem sameReal_fdiv_congr (ha : SameReal a a') : SameReal (fdiv free a b) (fdiv free' a' b) := by
  rcases ha with rfl | ⟨ha, ha'⟩
  · simp only [SameReal, fdiv]
    split
    · exact .inr ⟨isNaN_freeNaN _, isNaN_freeNaN _⟩
    split
    · split
      · exact .inr ⟨isNaN_freeNaN _, isNaN_freeNaN _⟩
      · exact .inl rfl
    split
    · exact .inl rfl
    split
    · split
      · exact .inr ⟨isNaN_freeNaN _, isNaN_freeNaN _⟩
      · exact .inl rfl
    · exact .inl rfl
  · exact .inr ⟨by simp [fdiv, ha], by simp [fdiv, ha']⟩

theorem flt_congr_left (h : SameReal a a') : flt a b = flt a' b := by
  rcases h with rfl | ⟨ha, ha'⟩
  · rfl
  · simp [flt, ha, ha']

theorem fold_free (free' : Word) (h : isFinite a = true) : fold free a = fold free' a := by
  rw [fold_of_finite h, fold_of_finite h]

end FreeWords

section Waves

variable {free free' : Nat → Word} {t dt : F64}

theorem sameReal_polyBlep : SameReal (polyBlep free t dt) (polyBlep free' t dt) := by
  unfold polyBlep
  rw [flt_congr_left (a := fsub (free 5) one64 dt) (a' := fsub (free' 5) one64 dt) sameReal_fsub]
  split
  · have hu : SameReal (fdiv (free 0) t dt) (fdiv (free' 0) t dt) := sameReal_fdiv_congr (.inl rfl)
    exact sameReal_fsub_congr
      (sameReal_fsub_congr (sameReal_fadd_congr hu hu) (sameReal_fmul_congr hu hu)) (.inl rfl)
  split
  · have hu : SameReal (fdiv (free 0) (fsub (free 1) t one64) dt)
        (fdiv (free' 0) (fsub (free' 1) t one64) dt) := sameReal_fdiv_congr sameReal_fsub
    exact sameReal_fadd_congr
      (sameReal_fadd_congr (sameReal_fadd_congr (sameReal_fmul_congr hu hu) hu) hu) (.inl rfl)
  · exact .inl rfl

/-- A correction is a number, so it is the same for all free words (41_oscillator.md R164). -/
theorem polyBlep_free (free free' : Nat → Word) (ht : InUnit t) (hdt : isFinite dt = true) :
    polyBlep free t dt = polyBlep free' t dt :=
  sameReal_polyBlep.eq_of_number (isNaN_of_isFinite ((atMost_polyBlep ht hdt).isFinite (by decide)))

/-- The angle of a phase is a number, so its sine is the same for all free words (41_oscillator.md R165). -/
theorem sineWave_free {w : Word} (w' : Word) (ht : InUnit t) : sineWave w t = sineWave w' t :=
  congrArg sinFn (sameReal_fmul.eq_of_number (isNaN_of_isFinite (isFinite_twoPi_fmul ht)))

/-- A Saw sample is a number, so it is the same for all free words (41_oscillator.md R166). -/
theorem sawWave_free (free free' : Nat → Word) (ht : InUnit t) (hdt : isFinite dt = true) :
    sawWave free t dt = sawWave free' t dt := by
  have hsame : SameReal (sawWave free t dt) (sawWave free' t dt) :=
    sameReal_fsub_congr (sameReal_fsub_congr sameReal_fmul (.inl rfl)) sameReal_polyBlep
  exact hsame.eq_of_number (isNaN_of_isFinite ((atMost_sawWave ht hdt).isFinite (by decide)))

/-- The phase half a cycle on, before its fold, is finite (41_oscillator.md R167). -/
theorem isFinite_fadd_half {w : Word} (ht : InUnit t) : isFinite (fadd w t half64) = true :=
  ((AtMost.of_inUnit ht).fadd (AtMost.of_inUnit (x := half64) (by decide +kernel)) (by decide)).isFinite
    (by decide)

/-- A Square sample is a number, so it is the same for all free words (41_oscillator.md R167). -/
theorem squareWave_free (free free' : Nat → Word) (ht : InUnit t) (hdt : isFinite dt = true) :
    squareWave free t dt = squareWave free' t dt := by
  have hshift : fold (free 2) (fadd (free 3) t half64) = fold (free' 2) (fadd (free' 3) t half64) := by
    rw [fadd_free (free' 3) (isFinite_of_inUnit ht) (by decide), fold_free (free' 2) (isFinite_fadd_half ht)]
  have hsame : SameReal (squareWave free t dt) (squareWave free' t dt) := by
    unfold squareWave
    rw [hshift]
    exact sameReal_fsub_congr (sameReal_fadd sameReal_polyBlep) sameReal_polyBlep
  exact hsame.eq_of_number (isNaN_of_isFinite ((atMost_squareWave ht hdt).isFinite (by decide)))

/-- The integrator may reach a NaN, whose sign and payload are a free word's (41_oscillator.md R168). -/
theorem sameReal_triangleIntegral {last : F64} (ht : InUnit t) (hdt : isFinite dt = true) :
    SameReal (triangleIntegral free t dt last) (triangleIntegral free' t dt last) :=
  sameReal_fadd_congr (sameReal_fmul_congr (.inl rfl) (.inl (squareWave_free _ _ ht hdt)))
    (sameReal_fmul_congr sameReal_fsub (.inl rfl))

theorem isNaN_triangleIntegral {last : F64} (h : isNaN last = true) :
    isNaN (triangleIntegral free t dt last) = true :=
  isNaN_fadd_of_isNaN_right (isNaN_fmul_of_isNaN_right h)

end Waves

section Increment

variable {free : Word} {c : OscConfig} {x y : F64}

theorem fabs_fneg (x : F64) : fabs (fneg x) = fabs x := eq_of_fsign_fmag (by simp) (by simp)

theorem fle_of_fmag (hx : fsign x = false) (hy : fsign y = false) (hf : isFinite y = true)
    (h : fmag x ≤ fmag y) : fle x y = true := by
  have hfx : isFinite x = true := isFinite_iff.2 (Nat.lt_of_le_of_lt h (isFinite_iff.1 hf))
  simpa [fle_of_finite hfx hf, fvalue, hx, hy] using h

/-- The increment is at most the frequency's magnitude: the rate is at least 1.0 (41_oscillator.md R161). -/
theorem fmag_phaseIncrement_le (hfreq : isFinite c.freq = true) (hrate : legalRate c.srate = true) :
    fmag (phaseIncrement free c) ≤ fmag c.freq := by
  obtain ⟨hfin, h0, -, hge⟩ := legalRate_facts hrate
  apply fmag_fdiv_le (by rwa [isFinite_fabs]) hfin h0
  rw [fmag_fabs]
  exact Nat.mul_le_mul_left _ hge

/-- Settles O44: the quotient is no larger than its dividend, of a clear sign, and forgets the dividend's. -/
theorem phaseIncrementIsFiniteAndForward : Obligations.PhaseIncrementIsFiniteAndForward := by
  intro c free hfreq hrate
  -- The offset plays no part in the increment, so any legal one will do.
  have ⟨hfin, hs⟩ := phaseIncrement_forward (free := free) (c := { c with phofs := posZero })
    ⟨hfreq, isFinite_posZero, hrate⟩
  have hmag := fmag_phaseIncrement_le (free := free) hfreq hrate
  refine ⟨rfl, hfin, ?_, hs, ?_, ?_⟩
  · exact fle_of_fmag (by decide) hs hfin (Nat.zero_le _)
  · exact fle_of_fmag hs (fsign_fabs _) (by rwa [isFinite_fabs]) (by rwa [fmag_fabs])
  · rw [phaseIncrement, fabs_fneg]

end Increment

section Windows

variable {free : Nat → Word} {w : Word} {t dt : F64}

theorem polyBlep_start (h : flt t dt = true) :
    let u := fdiv 0 t dt
    polyBlep zeroWords t dt = fsub 0 (fsub 0 (fadd 0 u u) (fmul 0 u u)) one64 := if_pos h

theorem polyBlep_end (h : flt t dt = false) (hend : flt (fsub 0 one64 dt) t = true) :
    let u := fdiv 0 (fsub 0 t one64) dt
    polyBlep zeroWords t dt = fadd 0 (fadd 0 (fadd 0 (fmul 0 u u) u) u) one64 :=
  (if_neg (by simp [h])).trans (if_pos hend)

theorem polyBlep_outside (h : flt t dt = false) (hend : flt (fsub 0 one64 dt) t = false) :
    polyBlep zeroWords t dt = posZero :=
  (if_neg (by simp [h])).trans (if_neg (Bool.eq_false_iff.1 hend))

theorem one_fsub_eq (hdt : isFinite dt = true) :
    fsub w one64 dt = roundInt false (unitsPerOne - fvalue dt) := by
  have hs : fsign one64 = false := by decide
  rw [fsub_of_finite isFinite_one64 hdt, hs, fvalue_one64, Bool.false_and]

/-- What an increment in [0, 1] leaves of 1.0 is in [0, 1]. -/
theorem inUnit_one_fsub (hdt : isFinite dt = true) (h0 : 0 ≤ fvalue dt) (h1 : fvalue dt ≤ unitsPerOne) :
    InUnit (fsub w one64 dt) := by
  rw [one_fsub_eq hdt]
  refine ⟨fle_iff.2 ⟨isNaN_posZero, isNaN_roundInt _ _, ?_⟩,
    fle_iff.2 ⟨isNaN_roundInt _ _, isNaN_one64, ?_⟩⟩
  · exact le_fvalue_roundInt isNaN_posZero (by rw [fvalue_posZero]; omega)
  · exact fvalue_roundInt_le isNaN_one64 (by rw [fvalue_one64]; omega)

/-- The second window begins below 1.0 exactly for an increment above `2^-54`; a smaller one is lost in the
rounding (41_oscillator.md R164; log 18). -/
theorem one_fsub_eq_one_iff (hdt : isFinite dt = true) (h0 : 0 ≤ fvalue dt) (h1 : fvalue dt ≤ unitsPerOne) :
    fsub w one64 dt = one64 ↔ fvalue dt ≤ unitsOf (fmag halfGap) := by
  have hmag : fmag (fsub w one64 dt) = roundUnits (unitsPerOne - fvalue dt).natAbs 1 := by
    rw [one_fsub_eq hdt, fmag_roundInt]
  have hs : fsign (fsub w one64 dt) = false := by
    have hge := fvalue_nonneg_of_fle (inUnit_one_fsub (w := w) hdt h0 h1).1
    rw [one_fsub_eq hdt] at hge ⊢
    exact fsign_roundInt_false rfl hge
  have hone : fsub w one64 dt = one64 ↔ fmag (fsub w one64 dt) = fmag one64 :=
    ⟨fun h => by rw [h], fun h => eq_of_fsign_fmag (by rw [hs]; decide) h⟩
  rw [hone, hmag, roundUnits_eq_one_iff (by omega)]
  omega

/-- Without an increment no phase is in a window (41_oscillator.md R164). -/
theorem windows_of_isZero (ht : InUnit t) (hdt : isFinite dt = true) (h : isZero dt = true) :
    flt t dt = false ∧ flt (fsub w one64 dt) t = false := by
  have htf := isFinite_of_inUnit ht
  have h0 := fvalue_nonneg_of_fle ht.1
  have hdt0 := isZero_iff_fvalue.1 h
  rw [(one_fsub_eq_one_iff hdt (by omega) (by omega)).2 (by omega)]
  refine ⟨?_, flt_eq_false_of_fle ht.2⟩
  simpa [flt_of_finite htf hdt, hdt0] using h0

/-- Settles O48, window by window: a phase in one of them shows that the increment is no zero. -/
theorem polyBlepIsZeroOutsideItsWindows : Obligations.PolyBlepIsZeroOutsideItsWindows := by
  intro free t dt ht hdt _
  have hzero (h : isZero dt = true) := windows_of_isZero (w := 0) ht hdt h
  rw [polyBlep_free free zeroWords ht hdt]
  refine ⟨fun hstart => ⟨?_, polyBlep_start hstart⟩, fun hstart hend => ⟨?_, polyBlep_end hstart hend⟩,
    polyBlep_outside, fun h => polyBlep_outside (hzero h).1 (hzero h).2⟩
  · rw [Bool.eq_false_iff]
    exact fun h => Bool.eq_false_iff.1 (hzero h).1 hstart
  · rw [Bool.eq_false_iff]
    exact fun h => Bool.eq_false_iff.1 (hzero h).2 hend

end Windows

section Samples

variable {free : Nat → Word} {c : OscConfig} {r : OscRuntime}

theorem phaseIncrement_free {w : Word} (w' : Word) (hc : OscConfigLegal c) :
    phaseIncrement w c = phaseIncrement w' c := by
  obtain ⟨hfreq, -, hrate⟩ := hc
  obtain ⟨hfin, h0, -⟩ := legalRate_facts hrate
  exact fdiv_free w' (by rwa [isFinite_fabs]) hfin h0

theorem instantPhase_free (free' : Nat → Word) (hp : PhaseSound r.phase) (hc : OscConfigLegal c) :
    instantPhase free c r = instantPhase free' c r := by
  obtain ⟨-, hphofs, -⟩ := hc
  have ⟨hpfin, _⟩ := hp
  rw [instantPhase, fadd_free (free' 1) hpfin hphofs, fold_free (free' 0) (phase_fadd hp hphofs).1]
  rfl

theorem oscSample_phase (hp : PhaseSound r.phase) (hc : OscConfigLegal c) :
    (oscSample free c r).phase = fold 0 (fadd 0 r.phase (phaseIncrement 0 c)) := by
  have ⟨hpfin, _⟩ := hp
  obtain ⟨hphase, -⟩ := oscSample_cases free c r
  obtain ⟨hdt, -⟩ := phaseIncrement_forward (free := 0) hc
  rw [hphase, phaseIncrement_free 0 hc, fadd_free 0 hpfin hdt, fold_free 0 (phase_fadd hp hdt).1]

theorem oscSample_out_saw (hm : c.mode = .saw) : (oscSample free c r).out =
    sawWave (freeFrom free 5) (instantPhase (freeFrom free 1) c r) (phaseIncrement (free 0) c) := by
  simp [oscSample, hm]

theorem oscSample_out_square (hm : c.mode = .square) : (oscSample free c r).out =
    squareWave (freeFrom free 5) (instantPhase (freeFrom free 1) c r) (phaseIncrement (free 0) c) := by
  simp [oscSample, hm]

theorem oscSample_last_triangle (hm : c.mode = .triangle) : (oscSample free c r).last =
    triangleIntegral (freeFrom free 6) (instantPhase (freeFrom free 1) c r) (phaseIncrement (free 0) c)
      r.last := by
  simp [oscSample, hm]

end Samples

section Commands

/-- The phase and the increment of the next sample, with the free words that the statements write. -/
theorem sample_operands {s : State} (free : Nat → Word) (hs : OscInvariant s) :
    instantPhase (freeFrom free 1) s.oscCfg s.osc = instantPhase zeroWords s.oscCfg s.osc ∧
      phaseIncrement (free 0) s.oscCfg = phaseIncrement 0 s.oscCfg ∧
      InUnit (instantPhase zeroWords s.oscCfg s.osc) ∧ isFinite (phaseIncrement 0 s.oscCfg) = true := by
  have ⟨hp, hc⟩ := hs
  exact ⟨instantPhase_free _ hp hc, phaseIncrement_free _ hc, inUnit_instantPhase _ hs,
    (phaseIncrement_forward hc).1⟩

/-- Settles O43, mode by mode. -/
theorem oscGenMakesOneSample : Obligations.OscGenMakesOneSample := by
  intro s hs
  have ⟨hp, hc⟩ := hs
  obtain ⟨hphase, hinc, ht, hdt⟩ := sample_operands (freeWords s) hs
  obtain ⟨-, hkept, houtTri⟩ := oscSample_cases (freeWords s) s.oscCfg s.osc
  refine ⟨(oscSample (freeWords s) s.oscCfg s.osc).last, (oscSample (freeWords s) s.oscCfg s.osc).out, _,
    rfl, ⟨rfl, rfl, rfl, rfl, ?_⟩, fun hm => ⟨hkept (by simp [hm]), ?_⟩,
    fun hm => ⟨hkept (by simp [hm]), ?_⟩, fun hm => ⟨hkept (by simp [hm]), ?_⟩, fun hm => ⟨?_, ?_⟩⟩
  · exact congrArg (OscRuntime.mk · _ _) (oscSample_phase hp hc)
  · rw [oscSample_out_sine hm, hphase]
    exact sineWave_free 0 ht
  · rw [oscSample_out_saw hm, hphase, hinc, sawWave_free _ zeroWords ht hdt]
    rfl
  · rw [oscSample_out_square hm, hphase, hinc, squareWave_free _ zeroWords ht hdt]
    rfl
  · rw [oscSample_last_triangle hm, hphase, hinc]
    exact sameReal_triangleIntegral (free' := zeroWords) ht hdt
  · rw [houtTri hm]
    exact sameReal_fmul

/-- Settles O50: a NaN integrator makes a NaN sum, and the output is its double. -/
theorem nanIntegratorStaysNaN : Obligations.NaNIntegratorStaysNaN := by
  intro s hm hnan
  have hlast : isNaN (oscSample (freeWords s) s.oscCfg s.osc).last = true := by
    rw [oscSample_last_triangle hm]
    exact isNaN_triangleIntegral hnan
  obtain ⟨-, -, hout⟩ := oscSample_cases (freeWords s) s.oscCfg s.osc
  refine ⟨_, rfl, hlast, ?_⟩
  rw [drawn_osc, hout hm]
  exact isNaN_fmul_of_isNaN_right hlast

/-- Settles O23: the meaning of `osc.reset` is the reset values of R173, written out. -/
theorem oscResetClearsTheOscillator : Obligations.OscResetClearsTheOscillator := fun _ => rfl

end Commands

end Sys2Proof.Machine
end

section
/-! The instantaneous phase 1.0 (41_oscillator.md R163, R169; 70_reset_and_hazards.md R273; log 18): whether the
second window of `polyBlep` begins below 1.0 decides between the corrected and the naive value. -/

namespace Sys2Proof.Machine

section PhaseOne

variable {dt : F64}

theorem flt_one_of_ne {x : F64} (h : InUnit x) (hne : x ≠ one64) : flt x one64 = true := by
  obtain ⟨hx, hnum, hle⟩ := fle_iff.1 h.2
  refine flt_iff.2 ⟨hx, hnum, lt_of_le_of_ne hle fun heq => hne (eq_of_fvalue ?_ heq)⟩
  have hpos : 0 < fvalue x := by rw [heq]; decide +kernel
  rw [fsign_eq_false_of_pos hpos]
  decide

theorem fvalue_halfGap : fvalue halfGap = unitsOf (fmag halfGap) := fvalue_of_nonneg (by decide +kernel)

/-- A small increment corrects nothing at 1.0: its window would begin at 1.0 itself. -/
theorem polyBlep_one_of_small (hdt : isFinite dt = true) (h0 : 0 ≤ fvalue dt)
    (hsmall : fle dt halfGap = true) : polyBlep zeroWords one64 dt = posZero := by
  have hgap := unitsOf_halfGap
  have hle := (fle_iff.1 hsmall).2.2
  rw [fvalue_halfGap] at hle
  apply polyBlep_outside
  · simp only [flt_of_finite isFinite_one64 hdt, fvalue_one64, decide_eq_false_iff_not]
    omega
  · rw [(one_fsub_eq_one_iff hdt h0 (by omega)).2 hle]
    decide +kernel

theorem posZero_fdiv (hdt : isFinite dt = true) (hpos : 0 < fvalue dt) :
    fdiv 0 posZero dt = posZero := by
  have hmag : fmag posZero = 0 := by decide
  rw [fdiv_of_finite isFinite_posZero hdt (isZero_of_pos hpos), hmag, unitsOf_zero, Nat.zero_mul,
    roundUnits_zero, fsign_eq_false_of_pos hpos]
  decide

/-- A larger one corrects by 1.0: the phase is 0 increments from the end of the cycle. -/
theorem polyBlep_one_of_large (hlarge : flt halfGap dt = true) (hle : fle dt one64 = true) :
    polyBlep zeroWords one64 dt = one64 := by
  have hdt : isFinite dt = true :=
    isFinite_of_bounds (by decide) isFinite_one64 (fle_of_flt hlarge) hle
  have hgt := (flt_iff.1 hlarge).2.2
  have h1 := (fle_iff.1 hle).2.2
  rw [fvalue_halfGap] at hgt
  rw [fvalue_one64] at h1
  have hend : flt (fsub 0 one64 dt) one64 = true :=
    flt_one_of_ne (inUnit_one_fsub hdt (by omega) h1) fun h =>
      absurd ((one_fsub_eq_one_iff hdt (by omega) h1).1 h) (by omega)
  have hu : fdiv 0 (fsub 0 one64 one64) dt = posZero := by
    have hdiff : fsub 0 one64 one64 = posZero := by decide +kernel
    rw [hdiff, posZero_fdiv hdt (by omega)]
  rw [polyBlep_end (flt_eq_false_of_fle hle) hend, hu]
  decide +kernel

/-- Half a cycle from 1.0 no increment of at most a half has a window. -/
theorem polyBlep_half (hdt : isFinite dt = true) (h0 : 0 ≤ fvalue dt) (hle : fle dt half64 = true) :
    polyBlep zeroWords half64 dt = posZero := by
  have hfin : isFinite half64 = true := by decide
  have htwice : fvalue half64 + fvalue half64 = unitsPerOne := by decide +kernel
  have hhalf := (fle_iff.1 hle).2.2
  have hrest := isFinite_of_inUnit (inUnit_one_fsub (w := 0) hdt h0 (by omega))
  have hge : fvalue half64 ≤ fvalue (fsub 0 one64 dt) := by
    rw [one_fsub_eq hdt]
    exact le_fvalue_roundInt (by decide) (by omega)
  apply polyBlep_outside (flt_eq_false_of_fle hle)
  rw [flt_of_finite hrest hfin]
  exact decide_eq_false (Int.not_lt.2 hge)

theorem sawWave_one : sawWave zeroWords one64 dt = fsub 0 one64 (polyBlep zeroWords one64 dt) := by
  have hnaive : fsub 0 (fmul 0 two64 one64) one64 = one64 := by decide +kernel
  rw [sawWave, hnaive]
  rfl

/-- At 1.0 the second correction of Square is half a cycle off, where an increment of at most a half has
none. -/
theorem squareWave_one (hdt : isFinite dt = true) (h0 : 0 ≤ fvalue dt) (hle : fle dt half64 = true) :
    squareWave zeroWords one64 dt =
      fsub 0 (fadd 0 negOne64 (polyBlep zeroWords one64 dt)) posZero := by
  have hnaive : flt one64 half64 = false := by decide +kernel
  have hshift : fold 0 (fadd 0 one64 half64) = half64 := by decide +kernel
  rw [← polyBlep_half hdt h0 hle, squareWave, hnaive, hshift]
  rfl

/-- Settles O49: the phase sum folds to 1.0, and the increment decides the correction there. -/
theorem wavesAtPhaseOneFollowTheIncrement : Obligations.WavesAtPhaseOneFollowTheIncrement := by
  intro s hs x dt least hlo hhi
  have ⟨hp, hc⟩ := hs
  have ⟨_, hphofs, _⟩ := hc
  obtain ⟨hphase, hinc, ht, hdt⟩ := sample_operands (freeWords s) hs
  have h0 := fvalue_nonneg_of_fsign (phaseIncrement_forward (free := 0) hc).2
  have hone : fold 0 x = one64 := (fold_eq_one_iff (phase_fadd hp hphofs).1).2 ⟨hlo, hhi⟩
  rw [show instantPhase zeroWords s.oscCfg s.osc = one64 from hone] at hphase ht
  have hsaw (hm : s.oscCfg.mode = .saw) :
      (oscSample (freeWords s) s.oscCfg s.osc).out = fsub 0 one64 (polyBlep zeroWords one64 dt) := by
    rw [oscSample_out_saw hm, hphase, hinc, sawWave_free _ zeroWords ht hdt, sawWave_one]
    rfl
  have hsquare (hm : s.oscCfg.mode = .square) (hle : fle dt half64 = true) :
      (oscSample (freeWords s) s.oscCfg s.osc).out =
        fsub 0 (fadd 0 negOne64 (polyBlep zeroWords one64 dt)) posZero := by
    rw [oscSample_out_square hm, hphase, hinc, squareWave_free _ zeroWords ht hdt,
      squareWave_one hdt h0 hle]
    rfl
  have hsmall (hle : fle dt least = true) : polyBlep zeroWords one64 dt = posZero :=
    polyBlep_one_of_small hdt h0 hle
  refine ⟨hone, _, rfl, fun hm => ⟨fun hgt hle => ?_, fun hle => ?_⟩,
    fun hm => ⟨fun hgt hle => ?_, fun hle => ?_⟩⟩
  · rw [drawn_osc, hsaw hm, polyBlep_one_of_large hgt hle]
    decide +kernel
  · rw [drawn_osc, hsaw hm, hsmall hle]
    decide +kernel
  · have hle1 : fle dt one64 = true := fle_trans hle (by decide +kernel)
    rw [drawn_osc, hsquare hm hle, polyBlep_one_of_large hgt hle1]
    decide +kernel
  · have hhalf : fle dt half64 = true := fle_trans hle (by decide +kernel)
    rw [drawn_osc, hsquare hm hhalf, hsmall hle]
    decide +kernel

end PhaseOne

end Sys2Proof.Machine
end

section
/-! The control commands (42_control.md R210, R211): each runs to one written state, from every state. -/

namespace Sys2Proof.Machine

/-- Settles O19: `clrerr` answers `clearErrors`, the update of the error record alone. -/
theorem clrerrClearsTheErrorRecord : Obligations.ClrerrClearsTheErrorRecord := fun _ => rfl

/-- Settles O20: `nop` answers the state it is given. -/
theorem nopChangesNothing : Obligations.NopChangesNothing := fun _ => rfl

end Sys2Proof.Machine
end

section
/-! The exceptions (60_exceptions.md R231 to R239): which words each register rejects, by their bits; what `raise`
does to each field of `STATUS`, and so what the record says after any sequence of errors; and that no command
raises anything. -/

namespace Sys2Proof.Machine

section Errors

variable {c : Cause} {info : Word} {e : ErrorRecord}

/-- Settles O18: a command completes, and `exec_err` says which one changes the record. -/
theorem commandsRaiseNothing : Obligations.CommandsRaiseNothing := by
  intro j s
  obtain ⟨t, ht⟩ := exec_completes j s
  exact ⟨t, ht, fun hne => (exec_err ht).resolve_left fun ⟨hclear, _⟩ => hne hclear⟩

/-- `STATUS[k - 1]`, the sticky bit of the kind `k` (10_state.md R24): `errValue`, `errCmd` and `errAccess` by the
kind. -/
def kindRecorded (k : Cause) (st : Word) : Bool := st.getLsbD ((causeCode k).toNat - 1)

theorem errValue_eq (st : Word) : errValue st = kindRecorded .value st := rfl

theorem errCmd_eq (st : Word) : errCmd st = kindRecorded .command st := rfl

theorem errAccess_eq (st : Word) : errAccess st = kindRecorded .access st := rfl

theorem kindRecorded_setSticky (c k : Cause) (st : Word) :
    kindRecorded k (setSticky c st) = (kindRecorded k st || c == k) := by
  have hbit : kindRecorded k (stickyBit c) = (c == k) := by cases c <;> cases k <;> rfl
  rw [← hbit, kindRecorded, setSticky, BitVec.getLsbD_or]
  rfl

/-- `FIRST_CAUSE` stands above the sticky bits. -/
theorem kindRecorded_setFirstCause (c k : Cause) (st : Word) :
    kindRecorded k (setFirstCause c st) = kindRecorded k st := by
  have hkeep : kindRecorded k (~~~0x30#64) = true := by cases k <;> rfl
  have hcode : kindRecorded k ((causeCode c).setWidth 64 <<< 4) = false := by cases c <;> cases k <;> rfl
  rw [kindRecorded] at hkeep hcode ⊢
  rw [setFirstCause, BitVec.getLsbD_or, BitVec.getLsbD_and, hkeep, hcode, Bool.and_true, Bool.or_false]
  rfl

theorem reserved_of_setSticky (c : Cause) (st : Word) :
    setSticky c st &&& ~~~0x37#64 = st &&& ~~~0x37#64 := by
  have hbit : stickyBit c &&& ~~~0x37#64 = 0#64 := by cases c <;> decide
  rw [setSticky, BitVec.and_or_distrib_right, hbit, BitVec.or_zero]

theorem reserved_of_setFirstCause (c : Cause) (st : Word) :
    setFirstCause c st &&& ~~~0x37#64 = st &&& ~~~0x37#64 := by
  have hmask : ~~~0x30#64 &&& ~~~0x37#64 = ~~~0x37#64 := by decide
  have hcode : (causeCode c).setWidth 64 <<< 4 &&& ~~~0x37#64 = 0#64 := by cases c <;> decide
  rw [setFirstCause, BitVec.and_or_distrib_right, hcode, BitVec.or_zero, BitVec.and_assoc, hmask]

@[simp] theorem firstCause_setSticky (c : Cause) (st : Word) :
    firstCause (setSticky c st) = firstCause st := by
  have hclear : (stickyBit c).extractLsb' 4 2 = 0#2 := by cases c <;> decide
  rw [firstCause, firstCause, setSticky, BitVec.extractLsb'_or, hclear, BitVec.or_zero]

@[simp] theorem firstCause_setFirstCause (c : Cause) (st : Word) :
    firstCause (setFirstCause c st) = causeCode c := by
  have hmask : (~~~0x30#64).extractLsb' 4 2 = 0#2 := by decide
  have hcode : ((causeCode c).setWidth 64 <<< 4).extractLsb' 4 2 = causeCode c := by cases c <;> decide
  rw [firstCause, setFirstCause, BitVec.extractLsb'_or, BitVec.extractLsb'_and, hmask, hcode,
    BitVec.and_zero, BitVec.zero_or]

/-- `raise` sets the sticky bit of its own kind and no other. -/
theorem kindRecorded_recordError (c k : Cause) (info : Word) (e : ErrorRecord) :
    kindRecorded k (recordError c info e).status = (kindRecorded k e.status || c == k) := by
  rcases recordError_cases c info e with ⟨-, hrec⟩ | ⟨-, hrec⟩ <;> rw [hrec]
  · exact (kindRecorded_setFirstCause c k _).trans (kindRecorded_setSticky c k _)
  · exact kindRecorded_setSticky c k _

/-- `raise` leaves the reserved bits of `STATUS`. -/
theorem reserved_of_recordError (c : Cause) (info : Word) (e : ErrorRecord) :
    (recordError c info e).status &&& ~~~0x37#64 = e.status &&& ~~~0x37#64 := by
  rcases recordError_cases c info e with ⟨-, hrec⟩ | ⟨-, hrec⟩ <;> rw [hrec]
  · exact (reserved_of_setFirstCause c _).trans (reserved_of_setSticky c _)
  · exact reserved_of_setSticky c _

theorem recordError_first (h : firstCause e.status = 0) :
    firstCause (recordError c info e).status = causeCode c ∧ (recordError c info e).errInfo = info := by
  rcases recordError_cases c info e with ⟨-, hrec⟩ | ⟨hne, -⟩
  · rw [hrec]
    exact ⟨firstCause_setFirstCause c _, rfl⟩
  · exact absurd h hne

theorem recordError_later (h : firstCause e.status ≠ 0) :
    firstCause (recordError c info e).status = firstCause e.status ∧
      (recordError c info e).errInfo = e.errInfo := by
  rcases recordError_cases c info e with ⟨heq, -⟩ | ⟨-, hrec⟩
  · exact absurd heq h
  · rw [hrec]
    exact ⟨firstCause_setSticky c _, rfl⟩

theorem recordErrors_cons (p : Cause × Word) (es : List (Cause × Word)) (e : ErrorRecord) :
    recordErrors (p :: es) e = recordErrors es (recordError p.1 p.2 e) := rfl

/-- After a list of errors a sticky bit says whether it was set before or its kind occurred. -/
theorem kindRecorded_recordErrors (k : Cause) (es : List (Cause × Word)) (e : ErrorRecord) :
    kindRecorded k (recordErrors es e).status = (kindRecorded k e.status || es.any (·.1 == k)) := by
  induction es generalizing e with
  | nil => simp [recordErrors]
  | cons p es ih =>
    rw [recordErrors_cons, ih, kindRecorded_recordError, List.any_cons, Bool.or_assoc]

/-- From the cleared record, a sticky bit says whether its kind occurred (60_exceptions.md R231). -/
theorem kindRecorded_of_cleared (k : Cause) (es : List (Cause × Word)) :
    kindRecorded k (recordErrors es { status := 0, errInfo := 0 }).status = es.any (·.1 == k) := by
  have hcleared : kindRecorded k 0 = false := by cases k <;> rfl
  rw [kindRecorded_recordErrors, hcleared, Bool.false_or]

/-- Errors raised while the record holds one leave its description of the first (60_exceptions.md R239). -/
theorem recordErrors_later (es : List (Cause × Word)) (h : firstCause e.status ≠ 0) :
    firstCause (recordErrors es e).status = firstCause e.status ∧
      (recordErrors es e).errInfo = e.errInfo := by
  induction es generalizing e with
  | nil => exact ⟨rfl, rfl⟩
  | cons p es ih =>
    obtain ⟨hfirst, hinfo⟩ := recordError_later (c := p.1) (info := p.2) h
    obtain ⟨hfirst', hinfo'⟩ := ih (hfirst ▸ h)
    exact ⟨hfirst'.trans hfirst, hinfo'.trans hinfo⟩

/-- From the cleared record, the first error is the one described, whatever is raised later. -/
theorem recordErrors_first (p : Cause × Word) (es : List (Cause × Word)) (h : firstCause e.status = 0) :
    firstCause (recordErrors (p :: es) e).status = causeCode p.1 ∧
      (recordErrors (p :: es) e).errInfo = p.2 := by
  obtain ⟨hfirst, hinfo⟩ := recordError_first (c := p.1) (info := p.2) h
  obtain ⟨hfirst', hinfo'⟩ := recordErrors_later es (hfirst ▸ causeCode_ne_zero p.1)
  exact ⟨hfirst'.trans hfirst, hinfo'.trans hinfo⟩

/-- Settles O16: one `raise` by the fields of `STATUS` it touches, a list of them by induction. -/
theorem errorsAreRecordedAndTheFirstKept : Obligations.ErrorsAreRecordedAndTheFirstKept := by
  simp only [Obligations.ErrorsAreRecordedAndTheFirstKept, errValue_eq, errCmd_eq, errAccess_eq]
  refine ⟨fun c info e => ?_, fun first later => ?_⟩
  · exact ⟨kindRecorded_recordError c _ info e, kindRecorded_recordError c _ info e,
      kindRecorded_recordError c _ info e, reserved_of_recordError c info e, recordError_first,
      recordError_later⟩
  · exact ⟨kindRecorded_of_cleared _ _, kindRecorded_of_cleared _ _, kindRecorded_of_cleared _ _,
      recordErrors_first first later (by decide)⟩

end Errors

section LegalValues

variable {v : Word}

/-- A legal duration is 1 to 0xFFFFFFFF (10_state.md R27). -/
theorem legalDuration_iff : legalDuration v = true ↔ 1 ≤ v.toNat ∧ v.toNat ≤ 0xFFFFFFFF := by
  have hhigh : v.extractLsb' 32 32 = 0 ↔ v.toNat / 2 ^ 32 % 2 ^ 32 = 0 := by
    simp [← BitVec.toNat_inj, Nat.shiftRight_eq_div_pow]
  have hlow : v.extractLsb' 0 32 = 0 ↔ v.toNat % 2 ^ 32 = 0 := by simp [← BitVec.toNat_inj]
  have hv := v.isLt
  rw [legalDuration, Bool.and_eq_true, beq_iff_eq, bne_iff_ne, ne_eq, hhigh, hlow]
  omega

/-- A finite word, its sign bit left out, is below infinity (10_state.md R45, R46). -/
theorem isFinite_iff_toNat : isFinite v = true ↔ v.toNat % 0x8000000000000000 < 0x7FF0000000000000 :=
  isFinite_iff

/-- A range of magnitudes under a clear sign is the same range of words. -/
theorem fsign_false_and_fmag_iff {lo hi : Nat} (hhi : hi ≤ 2 ^ 63) :
    (fsign v = false ∧ lo ≤ fmag v ∧ fmag v < hi) ↔ lo ≤ v.toNat ∧ v.toNat < hi := by
  have hmag := fmag_lt v
  rw [toNat_eq_fmag v]
  cases fsign v
  · simp
  · simp only [if_true, Bool.true_eq_false, false_and, false_iff]
    omega

/-- The words whose value is at least that of a nonzero magnitude: a clear sign, and no smaller a magnitude. -/
theorem unitsOf_le_fvalue_iff {b : Nat} (hb : 0 < b) :
    (unitsOf b : Int) ≤ fvalue v ↔ fsign v = false ∧ b ≤ fmag v := by
  have hpos := unitsOf_pos hb
  cases hs : fsign v
  · simp [fvalue, hs]
  · simp only [fvalue, hs, if_true, Bool.true_eq_false, false_and, iff_false]
    omega

/-- Finite and no less than a nonzero magnitude: the words from it up to the infinity. -/
theorem isFinite_and_unitsOf_le_fvalue_iff {b : Nat} (hb : 0 < b) :
    (isFinite v = true ∧ (unitsOf b : Int) ≤ fvalue v) ↔ b ≤ v.toNat ∧ v.toNat < 0x7FF0000000000000 := by
  rw [unitsOf_le_fvalue_iff hb, isFinite_iff, ← fsign_false_and_fmag_iff (by decide)]
  exact ⟨fun ⟨hfin, hs, hge⟩ => ⟨hs, hge, hfin⟩, fun ⟨hs, hge, hfin⟩ => ⟨hfin, hs, hge⟩⟩

/-- A legal shape is above `+0.0` and below infinity (10_state.md R28). -/
theorem legalShape_iff_toNat : legalShape v = true ↔ 0 < v.toNat ∧ v.toNat < 0x7FF0000000000000 := by
  have hone : (unitsOf 1 : Int) = 1 := by decide
  have hpos : isFinite v = true → (flt posZero v = true ↔ (unitsOf 1 : Int) ≤ fvalue v) := fun hfin => by
    rw [flt_of_finite isFinite_posZero hfin, decide_eq_true_iff, fvalue_posZero, hone]
    exact Iff.rfl
  rw [legalShape_iff, and_congr_right hpos, isFinite_and_unitsOf_le_fvalue_iff (by decide)]
  exact Iff.rfl

/-- A legal rate is from 1.0 up and below infinity (10_state.md R47). -/
theorem legalRate_iff_toNat :
    legalRate v = true ↔ 0x3FF0000000000000 ≤ v.toNat ∧ v.toNat < 0x7FF0000000000000 := by
  have hge : isFinite v = true → (fle one64 v = true ↔ (unitsOf (fmag one64) : Int) ≤ fvalue v) :=
    fun hfin => by
      rw [fle_of_finite isFinite_one64 hfin, decide_eq_true_iff, fvalue_one64, unitsOf_one64]
  rw [legalRate, Bool.and_eq_true, and_congr_right hge, isFinite_and_unitsOf_le_fvalue_iff (by decide)]
  exact Iff.rfl

/-- The words of a value not below zero: those with a clear sign, and `-0.0`. -/
theorem fvalue_nonneg_iff : 0 ≤ fvalue v ↔ fsign v = false ∨ fmag v = 0 := by
  cases hs : fsign v
  · simp [fvalue_nonneg_of_fsign hs]
  · have hval : fvalue v = -(unitsOf (fmag v) : Int) := by rw [fvalue, if_pos hs]
    have hzero : unitsOf (fmag v) = 0 ↔ fmag v = 0 := unitsOf_inj (c := 0)
    simp only [Bool.true_eq_false, false_or]
    omega

/-- The interval [0, 1] by signs and magnitudes. -/
theorem inUnit_iff_fmag : InUnit v ↔ (fsign v = false ∨ fmag v = 0) ∧ fmag v ≤ fmag one64 := by
  rw [← fvalue_nonneg_iff]
  constructor
  · rintro ⟨hge, hle⟩
    obtain ⟨-, -, hle⟩ := fle_iff.1 hle
    have h0 := fvalue_nonneg_of_fle hge
    rw [fvalue_of_nonneg h0, fvalue_one64, ← unitsOf_one64, Int.ofNat_le, unitsOf_le_iff] at hle
    exact ⟨h0, hle⟩
  · rintro ⟨h0, hle⟩
    have hnum : isNaN v = false := isNaN_eq_false.2 (hle.trans (by decide))
    refine ⟨fle_iff.2 ⟨isNaN_posZero, hnum, by rwa [fvalue_posZero]⟩, fle_iff.2 ⟨hnum, isNaN_one64, ?_⟩⟩
    rw [fvalue_of_nonneg h0, fvalue_one64, ← unitsOf_one64]
    exact Int.ofNat_le.2 (unitsOf_le_iff.2 hle)

/-- A legal level is `+0.0` up to 1.0, or `-0.0` (10_state.md R31). -/
theorem legalLevel_iff_toNat :
    legalLevel v = true ↔ v.toNat ≤ 0x3FF0000000000000 ∨ v = 0x8000000000000000 := by
  have hunit : legalLevel v = true ↔ InUnit v := Bool.and_eq_true_iff
  have hone : fmag one64 = 0x3FF0000000000000 := by decide
  have hneg : (0x8000000000000000 : Word).toNat = 2 ^ 63 := rfl
  have hmag := fmag_lt v
  rw [hunit, inUnit_iff_fmag, hone, ← BitVec.toNat_inj, hneg, toNat_eq_fmag v]
  cases fsign v
  · simp only [Bool.false_eq_true, if_false, true_or, true_and]
    omega
  · simp only [if_true, Bool.true_eq_false, false_or]
    omega

/-- Settles O10: the legal words of each register by their bits, then the two outcomes of a write. -/
theorem illegalValuesAreRejected : Obligations.IllegalValuesAreRejected := by
  have durations : ∀ r ∈ [Reg.envAtkDur, .envDecDur, .envSusDur, .envRelDur], ∀ v,
      legalValue r v = legalDuration v := by simp [legalValue]
  have shapes : ∀ r ∈ [Reg.envAtkShape, .envDecShape, .envRelShape], ∀ v,
      legalValue r v = legalShape v := by simp [legalValue]
  have operands : ∀ r ∈ [Reg.oscFreq, .oscPhofs], ∀ v, legalValue r v = isFinite v := by
    simp [legalValue]
  refine ⟨fun v => ?gated, fun r hr v => ?durations, fun r hr v => ?shapes, fun _ => legalLevel_iff_toNat,
    fun _ => BitVec.ule_iff_le, fun r hr v => ?operands, fun _ => legalRate_iff_toNat,
    fun r v s hk hv => ?rejected, fun r v s hk hv => ?stored⟩
  case gated => simp [legalValue]
  case durations => rw [durations r hr, legalDuration_iff]
  case shapes => rw [shapes r hr, legalShape_iff_toNat]
  case operands => rw [operands r hr, isFinite_iff_toNat]
  case rejected =>
    obtain ⟨-, -, -, -, hrejected⟩ := portWriteFollowsTheAccessKind (regIndex r) v s
    exact hrejected r (regAt_regIndex r) hk hv
  case stored =>
    obtain ⟨-, -, -, hlegal, -⟩ := portWriteFollowsTheAccessKind (regIndex r) v s
    exact hlegal r (regAt_regIndex r) hk hv

end LegalValues

end Sys2Proof.Machine
end

section
/-! Reset (70_reset_and_hazards.md R260, R261, R264): what hard reset leaves in the registers, that no command
changes the configuration, and the one-step segments and the silent Sine of the reset configuration. -/

namespace Sys2Proof.Machine

section HardReset

/-- Settles O58, by the parts of the invariant. -/
theorem invariantHoldsAtReset : Obligations.InvariantHoldsAtReset := coreInvariant_reset

theorem sameRegisters_hardReset (s : State) : SameRegisters (hardReset s) State.reset :=
  ⟨rfl, rfl, rfl, rfl, rfl⟩

/-- Hard reset reaches the invariant from any state, sound or not: the invariant speaks of registers alone. -/
theorem coreInvariant_hardReset (s : State) : CoreInvariant (hardReset s) := coreInvariant_reset

/-- A read depends on the registers alone (20_memory.md R71). -/
theorem readReg_congr {s t : State} (h : SameRegisters s t) (r : Reg) : readReg r s = readReg r t := by
  obtain ⟨herr, henvCfg, henv, hoscCfg, hosc⟩ := h
  simp only [readReg, herr, henvCfg, henv, hoscCfg, hosc]

/-- Settles O21: the registers are those of the reset state, whose words O5 lists. -/
theorem hardResetSetsEveryRegister : Obligations.HardResetSetsEveryRegister := by
  intro s
  obtain ⟨henv, -, hosc, -⟩ := coreInvariant_hardReset s
  refine ⟨hardReset s, rfl, sameRegisters_hardReset s, henv, hosc, ?_⟩
  obtain ⟨-, hmap⟩ := registerMapAfterReset
  have hsame : allRegs.map (fun r => readReg r (hardReset s)) =
      allRegs.map (fun r => readReg r State.reset) :=
    List.map_congr_left fun r _ => readReg_congr (sameRegisters_hardReset s) r
  exact hsame.trans (congrArg (List.map fun row : RegIndex × RegKind × Word => row.2.2) hmap)

end HardReset

section Configuration

/-- No command reads or answers the host (log 2). -/
theorem exec_port {j : Instr} {s t : State} (h : exec j s = .next t) : t.port = s.port := by
  rcases exec_cases h with rfl | ⟨-, rfl⟩ | ⟨_, _, rfl⟩ | ⟨-, _, _, rfl⟩ <;> rfl

/-- Settles O24, by what a command can change. -/
theorem commandsKeepTheConfiguration : Obligations.CommandsKeepTheConfiguration := by
  intro j s
  obtain ⟨t, ht⟩ := exec_completes j s
  obtain ⟨henvCfg, hoscCfg⟩ := exec_config ht
  exact ⟨t, ht, henvCfg, hoscCfg, exec_port ht⟩

end Configuration

section ResetCycle

variable {s : State} {stage : Stage}

/-- The envelope's registers in each stage of a cycle from reset: every segment has one step, rises to 1.0 in
Attack, stays there in Decay and Sustain, and falls to `+0.0` in Release (70_reset_and_hazards.md R264). -/
def resetSegment : Stage → EnvRuntime
  | .idle => State.reset.env
  | .attack =>
    { stage := .attack, remain := 1, ramp := posZero, inc := one64, delta := one64, shape := one64,
      base := posZero, amp := posZero, out := posZero }
  | .decay =>
    { stage := .decay, remain := 1, ramp := posZero, inc := one64, delta := fneg posZero, shape := one64,
      base := one64, amp := one64, out := one64 }
  | .sustain =>
    { stage := .sustain, remain := 1, ramp := posZero, inc := posZero, delta := posZero, shape := one64,
      base := one64, amp := one64, out := one64 }
  | .release =>
    { stage := .release, remain := 1, ramp := posZero, inc := one64, delta := negOne64, shape := one64,
      base := one64, amp := one64, out := one64 }

/-- A duration of one step ramps by 1.0. -/
theorem increment_one (free : Word) : increment free 1 = one64 := by
  rw [increment_eq_fdiv]
  decide +kernel

/-- `env.gate.on` from reset starts the cycle. -/
theorem gateOn_reset (free : Nat → Word) :
    gateOn free State.reset.envCfg State.reset.env = resetSegment .attack := by
  have hinc : increment (free 1) State.reset.envCfg.atkDur = one64 := increment_one _
  have hdelta : fsub (free 0) one64 State.reset.env.amp = one64 :=
    (fsub_free 0 isFinite_one64 isFinite_posZero).trans (by decide +kernel)
  rw [gateOn, hinc, hdelta]
  rfl

/-- The sample of a segment's one step is linear in the increment, by law P1 (00_scope.md R14). -/
theorem envSample_resetSegment (free : Nat → Word) (hstage : stage ≠ .idle) :
    envSample free (fadd (free 0) (resetSegment stage).ramp (resetSegment stage).inc)
      (resetSegment stage) = (resetSegment (nextStage stage)).out := by
  have hramp : (resetSegment stage).ramp = posZero := by cases stage <;> rfl
  have hshape : (resetSegment stage).shape = one64 := by cases stage <;> rfl
  have hfin : isFinite (resetSegment stage).inc = true := by cases stage <;> decide
  have hsign : fsign (resetSegment stage).inc = false := by cases stage <;> decide
  rw [envSample_eq, hramp, hshape, posZero_fadd hfin hsign, powFn_one64]
  cases stage with
  | idle => exact absurd rfl hstage
  | attack | decay | sustain | release => decide +kernel

/-- The one step of each segment enters the next one (40_envelope.md R112). -/
theorem envRamp_resetSegment (free : Nat → Word) (hstage : stage ≠ .idle) :
    envRamp free State.reset.envCfg (resetSegment stage) = resetSegment (nextStage stage) := by
  have hlast : (resetSegment stage).remain = 1 := by
    cases stage with
    | idle => exact absurd rfl hstage
    | attack | decay | sustain | release => rfl
  rw [envRamp_segmentEnd hlast (envSample_resetSegment free hstage)]
  cases stage with
  | idle => exact absurd rfl hstage
  | attack =>
    have hinc : increment (freeFrom free 3 1) State.reset.envCfg.decDur = one64 := increment_one _
    have hdelta : fsub (freeFrom free 3 0) one64 State.reset.envCfg.decLevel = posZero :=
      (fsub_free 0 isFinite_one64 isFinite_one64).trans (by decide +kernel)
    simp only [enterNext, segmentEnd, resetSegment, nextStage, hinc, hdelta]
    rfl
  | decay => rfl
  | sustain =>
    have hinc : increment (freeFrom free 3 1) State.reset.envCfg.relDur = one64 := increment_one _
    have hdelta : fneg one64 = negOne64 := by decide
    simp only [enterNext, segmentEnd, resetSegment, nextStage, hinc, hdelta]
    rfl
  | release => rfl

/-- A state at `stage` of the cycle from reset. -/
structure ResetCycle (stage : Stage) (s : State) : Prop where
  envCfg : s.envCfg = State.reset.envCfg
  env : s.env = resetSegment stage

theorem ResetCycle.gateOn : ∃ t, exec .envGateOn (respond none State.reset) = .next t ∧
    ResetCycle .attack t :=
  ⟨_, exec_envGateOn _, rfl, gateOn_reset _⟩

/-- Each `env.step` of the cycle goes one stage on: the reset configuration is not gated. -/
theorem ResetCycle.step (h : ResetCycle stage s) (hstage : stage ≠ .idle) :
    ∃ t, performAll (commands 1 .envStep) s = .next t ∧ ResetCycle (nextStage stage) t := by
  obtain ⟨hcfg, henv⟩ := h
  have hramps : envHolds s.envCfg s.env = false := by
    rw [hcfg, henv]
    cases stage with
    | idle => exact absurd rfl hstage
    | attack | decay | sustain | release => rfl
  refine ⟨_, performAll_commands_succ (n := 0) (exec_envStep_of_ramps (s := respond none s) hramps), hcfg, ?_⟩
  rw [drawn_env, respond_env, respond_envCfg, hcfg, henv]
  exact envRamp_resetSegment _ hstage

theorem ResetCycle.out (h : ResetCycle stage s) : s.env.out = (resetSegment stage).out :=
  congrArg EnvRuntime.out h.env

/-- A Sine of the reset configuration is `sinFn` of `+0.0` at a phase that stays (41_oscillator.md R169). -/
theorem oscGen_reset : ∃ t, performInput (.write (regIndex .cmd) (encode .oscGen)) State.reset = .next t ∧
    t.osc.out = posZero ∧ t.osc.phase = posZero := by
  have ⟨_, _, hosc, _⟩ := coreInvariant_respond (w := none) coreInvariant_reset
  obtain ⟨last, out, t, ht, ⟨-, -, -, -, hregs⟩, hsine, -⟩ := oscGenMakesOneSample _ hosc
  obtain ⟨-, hout⟩ := hsine rfl
  obtain ⟨hzero, -⟩ := sinLaws_sinFn.s1
  have hangle : fmul 0 twoPi64 (fold 0 (fadd 0 posZero posZero)) = posZero := by decide +kernel
  have hphase : fold 0 (fadd 0 State.reset.osc.phase
      (fdiv 0 (fabs State.reset.oscCfg.freq) State.reset.oscCfg.srate)) = posZero := by decide +kernel
  refine ⟨t, (performInput_command _ _).trans ht, ?_, ?_⟩ <;> rw [hregs]
  · exact hout.trans ((congrArg sinFn hangle).trans hzero)
  · simpa only [respond_osc, respond_oscCfg] using hphase

/-- Settles O25: `env.gate.on` starts the cycle, and each step goes one stage on. -/
theorem resetConfigurationWorks : Obligations.ResetConfigurationWorks := by
  obtain ⟨t, ht, hattack⟩ := ResetCycle.gateOn
  obtain ⟨t1, ht1, hdecay⟩ := hattack.step (by decide)
  obtain ⟨t2, ht2, hsustain⟩ := hdecay.step (by decide)
  obtain ⟨t3, ht3, hrelease⟩ := hsustain.step (by decide)
  obtain ⟨t4, ht4, hidle⟩ := hrelease.step (by decide)
  exact ⟨⟨t1, t2, t3, t4, (performAll_command_append ht).trans ht1, ht2, ht3, ht4, hdecay.out,
    hsustain.out, hrelease.out, hidle.out, congrArg EnvRuntime.stage hidle.env⟩, oscGen_reset⟩

end ResetCycle

end Sys2Proof.Machine
end
